-- ==== Sys2Proof/Word.lean ====
section
/-! DEFINITION. The word types of the block: command words, bytes, positions and palette indices (00_scope.md R9, R11). -/

namespace Sys2Proof

/-- A command word: the port carries whole 64-bit words (R65, R66). -/
abbrev Word := BitVec 64

/-- One colour channel, one pair byte, one configuration byte (`CHANNEL_W`, R9). -/
abbrev Byte := BitVec 8

/-- A position operand (`POS_W`, R9, D3). -/
abbrev Pos := BitVec 16

/-- A palette index (`INDEX_W`, R9). -/
abbrev Index := BitVec 4

end Sys2Proof
end

