-- ==== Sys2Proof/Config.lean ====
section
/-! DEFINITION. The implementation parameters of 00_scope.md R9 as plain data, and the free values of the model. -/

namespace Sys2Proof

/-- Which nibble of a pair byte is the on-index: `PAIR_LAYOUT` (R9, R52). -/
inductive PairLayout where
  | onHigh
  | onLow
deriving DecidableEq, Repr

/-- The three colour channels (R48). -/
inductive Channel where
  | r
  | g
  | b
deriving DecidableEq, Repr

/-- The six channel orders, named by wire order (R19, R88). -/
inductive ChannelOrder where
  | rgb
  | rbg
  | grb
  | gbr
  | brg
  | bgr
deriving DecidableEq, Repr

/-- When a transmission clears the dirty flag: `DIRTY_CLEAR` (R9, C3). -/
inductive DirtyClear where
  | atStart
  | atComplete
deriving DecidableEq, Repr

/-- What TICK does while a transmission is in flight: `TICK_BUSY_POLICY` (R9, R113). -/
inductive TickBusyPolicy where
  | hold
  | skip
deriving DecidableEq, Repr

/-- Transfer engine autonomous or blocking: `TX_STRATEGY` (R9, R124). -/
inductive TxStrategy where
  | engine
  | blocking
deriving DecidableEq, Repr

/-- The level the engine is run at (R8: "A model may implement either level"): `EMIT` and `COMPLETE` steps,
or one clock cycle a step (R132). The model's own parameter. DESIGN CHOICE, safe: log 1. -/
inductive Level where
  | bit
  | cycle
deriving DecidableEq, Repr

/-- The 49 keys of configuration space (R48). -/
inductive CfgKey where
  | colour (i : Index) (c : Channel)
  | order
deriving DecidableEq, Repr

/-- The parameters of R9, fixed for one instance. `orderMap` lists the order of each byte from 0 up; a byte
past its end maps to `defaultOrder`, so the map is total (R9, R10, R87). `cfgKeyMap` lists the numeric key of
each of the 49 keys. -/
structure Params where
  capacity : Nat
  pairLayout : PairLayout
  orderMap : List ChannelOrder
  defaultOrder : ChannelOrder
  dirtyClear : DirtyClear
  tickBusyPolicy : TickBusyPolicy
  txStrategy : TxStrategy
  dirtyReset : Bool
  fClk : Nat
  bitCycles : Nat
  h1Cycles : Nat
  h0Cycles : Nat
  resetCycles : Nat
  cfgKeyMap : List Nat
  level : Level
deriving DecidableEq, Repr

/-- The spec's defaults (R9, R87). DESIGN CHOICE, unsafe for a claim about this instance alone: CAPACITY has no
default in R9 (8, a value of its scenarios: log 2), nor has CFG_KEY_MAP (0..48: log 8). -/
def Params.default : Params where
  capacity := 8
  pairLayout := .onHigh
  orderMap := [.rgb, .rbg, .grb, .gbr, .brg, .bgr]
  defaultOrder := .rgb
  dirtyClear := .atStart
  tickBusyPolicy := .hold
  txStrategy := .engine
  dirtyReset := false
  fClk := 24000000
  bitCycles := 30
  h1Cycles := 20
  h0Cycles := 10
  resetCycles := 1200
  cfgKeyMap := List.range 49
  level := .bit

/-- `MAX_QUADS`: most quadruples in one event (R9). -/
abbrev maxQuads : Nat := 255

/-- `BITS_PER_LED` (R9). -/
abbrev bitsPerLed : Nat := 24

/-- `FRAME_BITS` = 24 x `CAPACITY` (R9). -/
def Params.frameBits (p : Params) : Nat := bitsPerLed * p.capacity

/-- `draw(UInt8)` (R13): the n-th byte no rule fixes. A free value: it has no body, so nothing can be proved of
which byte it is (R41, R49; log 3). -/
opaque freeByte : Nat → Byte

end Sys2Proof
end

