-- ==== Sys2Proof/Syntax.lean ====
section
/-! DEFINITION. The commands of CORE-CMD revision 1: one constructor per row of spec/opcode_table.json (30_encoding.md R68). -/

namespace Sys2Proof

/-- One command word, decoded. Operands are unsigned fields of the word (R67). -/
inductive Instr where
  /-- `UPD s, e, pair` (R69, R100). -/
  | upd (s e : Pos) (pair : Byte)
  /-- `EVT evop, k`: an event header; k QUAD words follow (R70, R103). -/
  | evt (evop k : Byte)
  /-- `EVT.FAIL evop` (R71, R104). -/
  | evtFail (evop : Byte)
  /-- `QUAD am, s, e, pair`: an extension word of an event (R72, R103). -/
  | quad (am : Byte) (s e : Pos) (pair : Byte)
  /-- `REFRESH` (R73, R120). -/
  | refresh
  /-- `TICK` (R73, R112). -/
  | tick
  /-- `SERVICE` (R73, R119). -/
  | service
  /-- `FRESET` (R73, R105). -/
  | freset
deriving DecidableEq, Repr

end Sys2Proof
end

