-- ==== Sys2Proof/WellFormed.lean ====
section
/-! DEFINITION. Which commands and which command streams are legal (30_encoding.md R67, R72, R78). -/

namespace Sys2Proof

/-- Every operand value its field can hold is legal (R67); the count of an event is bounded by `MAX_QUADS` (R9),
which the 8-bit count field enforces. -/
def Instr.wf : Instr → Bool
  | .upd _ _ _ => true
  | .evt _ k => k.toNat ≤ maxQuads
  | .evtFail _ => true
  | .quad _ _ _ _ => true
  | .refresh => true
  | .tick => true
  | .service => true
  | .freset => true

/-- What is wrong with a command stream (R78, R144). -/
inductive StreamError where
  /-- A QUAD word outside an event. -/
  | strayQuad
  /-- A word other than QUAD inside an event. -/
  | eventInterrupted
  /-- The stream ends inside an event. -/
  | eventUnfinished
deriving DecidableEq, Repr

/-- Checks a command stream, `n` quadruples being expected before its first command: an event header is followed
by exactly k QUAD words, and QUAD stands nowhere else (R72, R78, R144). -/
def streamCheck (n : Nat) : List Instr → Option StreamError
  | [] => if n = 0 then none else some .eventUnfinished
  | .quad _ _ _ _ :: is => if n = 0 then some .strayQuad else streamCheck (n - 1) is
  | .evt _ k :: is => if n = 0 then streamCheck k.toNat is else some .eventInterrupted
  | .upd _ _ _ :: is => if n = 0 then streamCheck 0 is else some .eventInterrupted
  | .evtFail _ :: is => if n = 0 then streamCheck 0 is else some .eventInterrupted
  | .refresh :: is => if n = 0 then streamCheck 0 is else some .eventInterrupted
  | .tick :: is => if n = 0 then streamCheck 0 is else some .eventInterrupted
  | .service :: is => if n = 0 then streamCheck 0 is else some .eventInterrupted
  | .freset :: is => if n = 0 then streamCheck 0 is else some .eventInterrupted

end Sys2Proof
end

