-- ==== Sys2Proof/Decode.lean ====
section
/-! DEFINITION. The command word: its fields, the decoder (total, rejecting by name) and the encoder (30_encoding.md R66 to R77). -/

namespace Sys2Proof

/-- The fields of a command word, most significant first (R66). -/
structure Fields where
  op : BitVec 4
  flg : BitVec 4
  a : Byte
  s : Pos
  e : Pos
  k : Byte
  p : Byte
deriving DecidableEq, Repr

/-- Reads the fields of a word (R66's bit ranges). -/
def Fields.ofWord (w : Word) : Fields where
  op := w.extractLsb' 60 4
  flg := w.extractLsb' 56 4
  a := w.extractLsb' 48 8
  s := w.extractLsb' 32 16
  e := w.extractLsb' 16 16
  k := w.extractLsb' 8 8
  p := w.extractLsb' 0 8

/-- `word = {OP, FLG, A, S, E, K, P}` (R66). -/
def Fields.toWord (f : Fields) : Word :=
  f.op ++ f.flg ++ f.a ++ f.s ++ f.e ++ f.k ++ f.p

/-- Why a word is illegal. -/
inductive DecodeError where
  /-- A reserved `OP`: 0x0 or 0x8 to 0xF (R76). -/
  | reservedOpcode (op : BitVec 4)
  /-- A legal `OP` with a nonzero bit where its row requires 0 (R77). -/
  | nonzeroField (op : BitVec 4)
deriving DecidableEq, Repr

/-- What the decoder reads from a word: a command, or the reason the word is illegal. -/
inductive Decoded where
  | instr (i : Instr)
  | illegal (e : DecodeError)
deriving DecidableEq, Repr

/-- The command, where there is one. -/
def Decoded.toOption : Decoded → Option Instr
  | .instr i => some i
  | .illegal _ => none

/-- Decodes the fields of a word: the rows of R68, one `OP` value at a time. -/
def Fields.decode (f : Fields) : Decoded :=
  if f.op = 0x1 then
    if f.flg = 0 ∧ f.a = 0 ∧ f.k = 0 then .instr (.upd f.s f.e f.p) else .illegal (.nonzeroField f.op)
  else if f.op = 0x2 then
    if f.flg = 0 ∧ f.s = 0 ∧ f.e = 0 ∧ f.p = 0 then .instr (.evt f.a f.k)
    else if f.flg = 1 ∧ f.s = 0 ∧ f.e = 0 ∧ f.k = 0 ∧ f.p = 0 then .instr (.evtFail f.a)
    else .illegal (.nonzeroField f.op)
  else if f.op = 0x3 then
    if f.flg = 0 ∧ f.k = 0 then .instr (.quad f.a f.s f.e f.p) else .illegal (.nonzeroField f.op)
  else if f.op = 0x4 ∨ f.op = 0x5 ∨ f.op = 0x6 ∨ f.op = 0x7 then
    if f.flg = 0 ∧ f.a = 0 ∧ f.s = 0 ∧ f.e = 0 ∧ f.k = 0 ∧ f.p = 0 then
      .instr (if f.op = 0x4 then .refresh else if f.op = 0x5 then .tick else if f.op = 0x6 then .service else .freset)
    else .illegal (.nonzeroField f.op)
  else .illegal (.reservedOpcode f.op)

/-- The decoder: total on every 64-bit word. -/
def decode (w : Word) : Decoded := (Fields.ofWord w).decode

/-- The fields of a command (R69 to R73). -/
def Instr.fields : Instr → Fields
  | .upd s e pair => ⟨0x1, 0, 0, s, e, 0, pair⟩
  | .evt evop k => ⟨0x2, 0, evop, 0, 0, k, 0⟩
  | .evtFail evop => ⟨0x2, 1, evop, 0, 0, 0, 0⟩
  | .quad am s e pair => ⟨0x3, 0, am, s, e, 0, pair⟩
  | .refresh => ⟨0x4, 0, 0, 0, 0, 0, 0⟩
  | .tick => ⟨0x5, 0, 0, 0, 0, 0, 0⟩
  | .service => ⟨0x6, 0, 0, 0, 0, 0, 0⟩
  | .freset => ⟨0x7, 0, 0, 0, 0, 0, 0⟩

/-- The encoder: the one word of a command. An event's QUAD words are commands of their own (R70, R72). -/
def encode (i : Instr) : Word := i.fields.toWord

/-- How many extension words follow a first word, told from that word alone (R74). -/
def Instr.extensionWords : Instr → Nat
  | .evt _ k => k.toNat
  | .upd _ _ _ => 0
  | .evtFail _ => 0
  | .quad _ _ _ _ => 0
  | .refresh => 0
  | .tick => 0
  | .service => 0
  | .freset => 0

/-- A row of the opcode table: the word bits a row fixes, and their values. -/
structure OpRow where
  mnemonic : String
  pattern : Word
  mask : Word
deriving DecidableEq, Repr

/-- The row's fixed bits stand in the word. -/
def OpRow.hit (r : OpRow) (w : Word) : Bool := w &&& r.mask = r.pattern

/-- The match and mask columns of R69 to R73. -/
def opRows : List OpRow :=
  [ ⟨"UPD", 0x1000000000000000, 0xFFFF00000000FF00⟩,
    ⟨"EVT", 0x2000000000000000, 0xFF00FFFFFFFF00FF⟩,
    ⟨"EVT.FAIL", 0x2100000000000000, 0xFF00FFFFFFFFFFFF⟩,
    ⟨"QUAD", 0x3000000000000000, 0xFF0000000000FF00⟩,
    ⟨"REFRESH", 0x4000000000000000, 0xFFFFFFFFFFFFFFFF⟩,
    ⟨"TICK", 0x5000000000000000, 0xFFFFFFFFFFFFFFFF⟩,
    ⟨"SERVICE", 0x6000000000000000, 0xFFFFFFFFFFFFFFFF⟩,
    ⟨"FRESET", 0x7000000000000000, 0xFFFFFFFFFFFFFFFF⟩ ]

/-- The row's mnemonic in spec/opcode_table.json. -/
def Instr.mnemonic : Instr → String
  | .upd _ _ _ => "UPD"
  | .evt _ _ => "EVT"
  | .evtFail _ => "EVT.FAIL"
  | .quad _ _ _ _ => "QUAD"
  | .refresh => "REFRESH"
  | .tick => "TICK"
  | .service => "SERVICE"
  | .freset => "FRESET"

/-- The command word numbered `w` (bit 0 the least significant bit of the word, which is how R66 numbers it), given
to the decoder; none where it refuses. Bits from `nbits` up are 0, and a number past 64 bits is no command word. -/
def decodeTableWord (nbits w : Nat) : Option Instr :=
  if w % 2 ^ nbits < 2 ^ 64 then (decode (BitVec.ofNat 64 (w % 2 ^ nbits))).toOption else none

end Sys2Proof
end

