-- ==== Sys2Proof/Machine/State.lean ====
section
/-! DEFINITION. The state of the block (10_state.md R20), what the environment holds beside it (R35), the reasons a step can stop, and reset. -/

namespace Sys2Proof.Machine

/-- One LED record: two palette indices, one per phase (R21). -/
structure LedRec where
  on : Index
  off : Index
deriving DecidableEq, Repr

/-- One frame-buffer entry: three bytes in wire order, `b0` sent first (R27, C10). -/
structure Wire3 where
  b0 : Byte
  b1 : Byte
  b2 : Byte
deriving DecidableEq, Repr

/-- A colour as the PaletteStore gives it (R85). -/
structure Colour3 where
  r : Byte
  g : Byte
  b : Byte
deriving DecidableEq, Repr

/-- The flash phase (R18, R24). -/
inductive Phase where
  | on
  | off
deriving DecidableEq, Repr

/-- An event's direction (R101). -/
inductive Polarity where
  | on
  | off
deriving DecidableEq, Repr

/-- The transfer engine's state (R28). -/
inductive TxState where
  | idle
  | bits
  | gap
deriving DecidableEq, Repr

/-- What the controller waits for (R32). -/
inductive CtlWait where
  | none
  | tx
deriving DecidableEq, Repr

/-- One received quadruple, "{actionMask, startPos, endPos, indexPair}" (R72). -/
structure Quad where
  am : Byte
  s : Pos
  e : Pos
  pair : Byte
deriving DecidableEq, Repr

/-- The event accumulator when it is not empty: polarity, quadruples still expected, quadruples received in
order (R31). -/
structure EvtAcc where
  pol : Polarity
  expected : Nat
  quads : List Quad
deriving DecidableEq, Repr

/-- A symbol of the wire trace (R14, R126). -/
inductive WireSym where
  | bit (b : Bool)
  | gap
deriving DecidableEq, Repr

/-- The configuration store's cells: numeric key and byte. Canonical form: `Memory.wf` (Machine/Ops.lean). -/
abbrev Memory := List Host.Cell

/-- One step of one agent (R155, R156, R158). -/
inductive Move where
  /-- The controller takes the word at the head of the port, if it is enabled (R143). At cycle level the engine
  takes its clock cycle in the same step. -/
  | controller
  /-- The engine: `EMIT` or `COMPLETE` at bit level, one clock cycle at cycle level (R122, R123, R132). -/
  | engine
  /-- The environment presents a command word (R65, R158). -/
  | present (w : Word)
  /-- The environment stores a byte under a configuration key (R158). -/
  | setCfg (key : CfgKey) (v : Byte)
  /-- The environment leaves a configuration key without a byte (R165: a store not populated). -/
  | dropCfg (key : CfgKey)
  /-- The environment settles which of the coming reads fail (R49, R158). -/
  | failReads (answers : List Bool)
  /-- Boot reset, asserted for that many clock cycles (R160, R162). -/
  | reset (cycles : Nat)
deriving DecidableEq, Repr

/-- The state: R20's rows, then what R35 places outside the block. -/
structure State where
  /-- The parameters (R9); no step changes them (R139). -/
  params : Params
  led : List LedRec
  frame : List Wire3
  phase : Phase
  dirty : Bool
  busy : Bool
  txState : TxState
  txK : Nat
  txC : Nat
  txG : Nat
  /-- The line level of the last clock cycle; at bit level the low end of the bit period (log 13). -/
  dout : Bool
  evt : Option EvtAcc
  ctlWait : CtlWait
  /-- Words presented and not yet accepted (R65). -/
  port : List Word
  /-- The configuration store (R48); an unlisted key has no byte (log 6). -/
  store : Memory
  /-- The answers to the coming reads: true fails that read; past its end reads do not fail of themselves (log 7). -/
  cfgFail : List Bool
  /-- The moves to come; when none is left the default policy chooses (log 4). -/
  sched : List Move
  /-- The wire trace (R36, R126). -/
  wire : List WireSym
  /-- How many bytes have been drawn (R13; log 3). -/
  draws : Nat
deriving DecidableEq, Repr

/-- The block itself has no fault (R140). The one reason here is the model's mark of a run that is stuck. -/
inductive Fault where
  /-- Raised by `step` alone: an event is open, no word is on the port, the engine is idle and no move is left, so
  the QUAD words never arrive (R144: "the model counts it as stuck, not final"). Safe: the machine stops where the
  block would wait for ever (log 12). -/
  | stuck
deriving DecidableEq, Repr

/-- The grounds on which a run has no meaning (R142). -/
inductive Refusal where
  /-- Raised by an arm of `exec` whose instruction has no meaning yet. Safe. -/
  | notModelled (mnemonic : String)
  /-- Raised by the controller on a word with a reserved `OP` (R76, R142). Safe: no claim is proved of such a run. -/
  | reservedOpcode (op : BitVec 4)
  /-- Raised by the controller on a word with a nonzero bit where its row requires 0 (R77, R142). Safe. -/
  | nonzeroField (op : BitVec 4)
  /-- Raised by QUAD outside an event (R78, R142). Safe. -/
  | strayQuad
  /-- Raised by every other command inside an event (R78, R142). Safe. -/
  | eventInterrupted
  /-- Raised by boot reset at cycle level when the environment holds it for less than `RESET_CYCLES` (R162's duty). Safe. -/
  | resetTooShort
deriving DecidableEq, Repr

/-- The outcomes of a step of this machine. -/
abbrev Result := Host.Outcome State Fault Refusal

/-- A frame buffer of `n` entries no rule has written: every byte a draw, the first of them number `d` (R41, R160). -/
def drawFrame (d : Nat) : Nat → List Wire3
  | 0 => []
  | n + 1 => ⟨freeByte d, freeByte (d + 1), freeByte (d + 2)⟩ :: drawFrame (d + 3) n

/-- The state right after power-on reset of an instance (R37 to R43, R160): a wire trace of one `Gap`, and an
environment that has presented and stored nothing yet. -/
def State.resetWith (p : Params) : State where
  params := p
  led := List.replicate p.capacity ⟨0, 0⟩
  frame := drawFrame 0 p.capacity
  phase := .off
  dirty := p.dirtyReset
  busy := false
  txState := .idle
  txK := 0
  txC := 0
  txG := 0
  dout := false
  evt := none
  ctlWait := .none
  port := []
  store := []
  cfgFail := []
  sched := []
  wire := [.gap]
  draws := 3 * p.capacity

/-- The state right after reset of the instance with the spec's default parameters (R9; log 2). -/
def State.reset : State := State.resetWith Params.default

end Sys2Proof.Machine
end

