-- ==== Sys2Proof/Machine/Flags.lean ====
section
/-! DEFINITION. Every flag computation: `dirty`, `phase`, `busy` and the line level (10_state.md R24 to R30). -/

namespace Sys2Proof.Machine

/-- `dirty <- 1` (R25). -/
def State.setDirty (s : State) : State := { s with dirty := true }

/-- The toggle of every executed TICK (R110). -/
def togglePhase : Phase → Phase
  | .on => .off
  | .off => .on

/-- `dirty` after a transmission has started (R121). -/
def dirtyAtStart (p : Params) (dirty : Bool) : Bool :=
  match p.dirtyClear with
  | .atStart => false
  | .atComplete => dirty

/-- `dirty` after a transmission has completed (R123). -/
def dirtyAtComplete (p : Params) (dirty : Bool) : Bool :=
  match p.dirtyClear with
  | .atStart => dirty
  | .atComplete => false

/-- `ctl_wait` after a transmission has started (R121, R124). -/
def waitAtStart (p : Params) (w : CtlWait) : CtlWait :=
  match p.txStrategy with
  | .engine => w
  | .blocking => .tx

/-- TICK is held: a transmission is in flight under `HOLD` (R113, R143). -/
def tickHeld (s : State) : Bool := s.busy && decide (s.params.tickBusyPolicy = .hold)

/-- The `busy` output: the state bit, at all times (R34, R84, R125). -/
def busyOut (s : State) : Bool := s.busy

end Sys2Proof.Machine
end

