-- ==== Sys2Proof/Machine/Operands.lean ====
section
/-! DEFINITION. Every operand form: pair bytes, clamped positions, polarity and action mask, configuration keys, channel orders, frame bits. -/

namespace Sys2Proof.Machine

/-- `DecodePair(P)` (R97). -/
def decodePair (layout : PairLayout) (b : Byte) : LedRec :=
  match layout with
  | .onHigh => ⟨b.extractLsb' 4 4, b.extractLsb' 0 4⟩
  | .onLow => ⟨b.extractLsb' 0 4, b.extractLsb' 4 4⟩

/-- `Clamp(e) = min(e, CAPACITY - 1)` (R98). -/
def clamp (p : Params) (e : Pos) : Nat := min e.toNat (p.capacity - 1)

/-- An event's polarity: bit 0 of its opcode, 0 = ON (R101). -/
def polarity (evop : Byte) : Polarity := if evop.getLsbD 0 then .off else .on

/-- `Matches(pol, am)` (R102). -/
def amMatches (pol : Polarity) (am : Byte) : Bool :=
  match pol with
  | .on => am.getLsbD 0
  | .off => am.getLsbD 1

/-- The place of a channel among the three keys of a palette entry. -/
def channelIndex : Channel → Nat
  | .r => 0
  | .g => 1
  | .b => 2

/-- The number of an abstract key among the 49 (R48): the 48 colour keys, then `KEY_ORDER`. -/
def keyIndex : CfgKey → Nat
  | .colour i c => 3 * i.toNat + channelIndex c
  | .order => 48

/-- The numeric key `CFG_KEY_MAP` gives an abstract key (R48). -/
def keyNum (p : Params) (k : CfgKey) : Nat := (p.cfgKeyMap[keyIndex k]?).getD (keyIndex k)

/-- `ORDER_MAP(v)` (R87, R90). -/
def orderOfByte (p : Params) (v : Byte) : ChannelOrder := (p.orderMap[v.toNat]?).getD p.defaultOrder

/-- The channel each slot of an order carries, slot 0 first (R88's table; GBR by C4). -/
def orderSlots : ChannelOrder → Channel × Channel × Channel
  | .rgb => (.r, .g, .b)
  | .rbg => (.r, .b, .g)
  | .grb => (.g, .r, .b)
  | .gbr => (.g, .b, .r)
  | .brg => (.b, .r, .g)
  | .bgr => (.b, .g, .r)

/-- R88's last column. -/
def orderInverse : ChannelOrder → ChannelOrder
  | .rgb => .rgb
  | .rbg => .rbg
  | .grb => .grb
  | .gbr => .brg
  | .brg => .gbr
  | .bgr => .bgr

/-- One channel of a colour. -/
def channelOf (t : Colour3) : Channel → Byte
  | .r => t.r
  | .g => t.g
  | .b => t.b

/-- `Permute(ord, (r, g, b))` (R89). -/
def permute (o : ChannelOrder) (t : Colour3) : Wire3 :=
  ⟨channelOf t (orderSlots o).1, channelOf t (orderSlots o).2.1, channelOf t (orderSlots o).2.2⟩

/-- The index a phase selects (R111 step 1). -/
def selectIndex (ph : Phase) (r : LedRec) : Index :=
  match ph with
  | .on => r.on
  | .off => r.off

/-- Byte `slot` of a frame entry (R118). -/
def wireByte (t : Wire3) (slot : Nat) : Byte :=
  if slot = 0 then t.b0 else if slot = 1 then t.b1 else t.b2

/-- `FrameBit(k)` (R118, R51). A bit past the frame, which no reachable cursor names, is 0 (log 19). -/
def frameBit (frame : List Wire3) (k : Nat) : Bool :=
  match frame[k / 24]? with
  | some t => (wireByte t (k % 24 / 8)).getLsbD (7 - k % 8)
  | none => false

/-- The high cycles of a bit period (R129). -/
def highCycles (p : Params) (b : Bool) : Nat := if b then p.h1Cycles else p.h0Cycles

/-- How many clock cycles one transmission keeps `busy` (R133). -/
def txCycles (p : Params) : Nat := p.frameBits * p.bitCycles + p.resetCycles

/-- The time of `n` clock cycles in picoseconds (R9's `F_CLK`, R177). -/
def picoseconds (p : Params) (n : Nat) : Nat := n * 1000000000000 / p.fClk

end Sys2Proof.Machine
end

