-- ==== Sys2Proof/Machine/Ops.lean ====
section
/-! DEFINITION. The named operations over the configuration store, the LED table and the command port. -/

namespace Sys2Proof.Machine

/-- The canonical form of the configuration store: keys strictly rising. An unlisted key has no byte, so every
listed byte differs from what an unlisted key reads as (R48; log 6). -/
abbrev Memory.wf (m : Memory) : Prop := m.Pairwise (fun x y => x.1 < y.1)

/-- The byte stored under a numeric key, if any (R49). -/
def Memory.read : Memory → Nat → Option Byte
  | [], _ => none
  | (a, v) :: m, k => if a = k then some v else Memory.read m k

/-- The environment stores a byte under a key (R158). -/
def Memory.write : Memory → Nat → Byte → Memory
  | [], k, v => [(k, v)]
  | (a, x) :: m, k, v =>
    if k < a then (k, v) :: (a, x) :: m
    else if k = a then (k, v) :: m
    else (a, x) :: Memory.write m k v

/-- The environment leaves a key without a byte (R165). -/
def Memory.erase : Memory → Nat → Memory
  | [], _ => []
  | (a, x) :: m, k => if a = k then m else (a, x) :: Memory.erase m k

/-- Overwrites with `v` every record whose position lies in `lo..hi`; the list starts at position `p` (R99). -/
def setRange (lo hi : Nat) (v : LedRec) : Nat → List LedRec → List LedRec
  | _, [] => []
  | p, r :: rs => (if lo ≤ p ∧ p ≤ hi then v else r) :: setRange lo hi v (p + 1) rs

/-- The controller has taken the word at the head of the port (R65). -/
def State.accept (s : State) : State := { s with port := s.port.tail }

/-- The LED table is replaced. -/
def State.setLed (s : State) (led : List LedRec) : State := { s with led := led }

/-- The event accumulator is replaced (R75). -/
def State.setEvt (s : State) (evt : Option EvtAcc) : State := { s with evt := evt }

/-- The enabledness of a command other than QUAD, in R143's order: a wait for the engine leaves the word on the
port; an open event makes the word a sequence error (R78); a hold of the command's own leaves the word on the
port; else the word is accepted and the command runs, atomically. A held word is a next state equal to the old one
(log 10). -/
def State.gate (s : State) (held : Bool) (run : State → State) : Result :=
  if s.ctlWait = .tx then .next s
  else if s.evt.isSome then .refused .eventInterrupted
  else if held then .next s
  else .next (run s.accept)

end Sys2Proof.Machine
end

