-- ==== Sys2Proof/Machine/EventMapper.lean ====
section
/-! DEFINITION. EventToRangeMapper: UPD, EVT, QUAD, EVT.FAIL and FRESET (42_event_mapper.md). -/

namespace Sys2Proof.Machine

/-- `UpdateRange(s, e, pr)`: the end clamped, the range overwritten, `dirty` set even when the range is empty (R99). -/
def updateRange (st : State) (s e : Pos) (pair : Byte) : State :=
  (st.setLed (setRange s.toNat (clamp st.params e) (decodePair st.params.pairLayout pair) 0 st.led)).setDirty

/-- One quadruple of an event: applied when its mask matches the polarity (R102, R103). -/
def applyQuad (pol : Polarity) (st : State) (q : Quad) : State :=
  if amMatches pol q.am then updateRange st q.s q.e q.pair else st

/-- `ApplyEvent`: the quadruples in arrival order, then `dirty <- 1` whatever matched (R103). -/
def applyEvent (pol : Polarity) (qs : List Quad) (st : State) : State :=
  (qs.foldl (applyQuad pol) st).setDirty

/-- UPD (R100). -/
def execUpd (s e : Pos) (pair : Byte) (st : State) : Result :=
  st.gate false (fun t => updateRange t s e pair)

/-- EVT: the header opens the accumulator, or applies the empty event at once (R75, R103). -/
def execEvt (evop k : Byte) (st : State) : Result :=
  st.gate false (fun t =>
    if k.toNat = 0 then applyEvent (polarity evop) [] t
    else t.setEvt (some ⟨polarity evop, k.toNat, []⟩))

/-- The accumulator takes one quadruple; the last one expected applies the whole event (R75). -/
def receiveQuad (acc : EvtAcc) (q : Quad) (t : State) : State :=
  if acc.expected ≤ 1 then applyEvent acc.pol (acc.quads ++ [q]) (t.setEvt none)
  else t.setEvt (some ⟨acc.pol, acc.expected - 1, acc.quads ++ [q]⟩)

/-- QUAD: accepted only inside an event, held while the controller waits for the engine (R72, R78, R143). -/
def execQuad (am : Byte) (s e : Pos) (pair : Byte) (st : State) : Result :=
  if st.ctlWait = .tx then .next st
  else
    match st.evt with
    | none => .refused .strayQuad
    | some acc => .next (receiveQuad acc ⟨am, s, e, pair⟩ st.accept)

/-- EVT.FAIL: consumed, no state change, `dirty` not set; its opcode is ignored (R104). -/
def execEvtFail (_evop : Byte) (st : State) : Result :=
  st.gate false (fun t => t)

/-- FRESET: every record becomes (0, 0), and nothing else changes (R105). -/
def execFreset (st : State) : Result :=
  st.gate false (fun t => t.setLed (List.replicate t.led.length ⟨0, 0⟩))

end Sys2Proof.Machine
end

