-- ==== Sys2Proof/Machine/Palette.lean ====
section
/-! DEFINITION. PaletteStore: the configuration reads TICK renders with (41_palette_store.md R85 to R93). -/

namespace Sys2Proof.Machine

/-- What the reads of one pass use up: the environment's answers, and the number of draws taken (R13, R49). -/
structure Reads where
  answers : List Bool
  draws : Nat
deriving DecidableEq, Repr

/-- `CfgRead(key)` (R49): the byte stored under the key when the read succeeds; none when the environment fails it
or the store holds no byte there (R165; log 6). -/
def cfgAnswer (p : Params) (m : Memory) (key : CfgKey) (r : Reads) : Option Byte :=
  if r.answers.headD false then none else Memory.read m (keyNum p key)

/-- The byte the block uses for one read: the answer, or a draw (R91). -/
def cfgByte (p : Params) (m : Memory) (key : CfgKey) (r : Reads) : Byte × Reads :=
  match cfgAnswer p m key r with
  | some v => (v, ⟨r.answers.tail, r.draws⟩)
  | none => (freeByte r.draws, ⟨r.answers.tail, r.draws + 1⟩)

/-- `Colour(i)`: three reads, R, G, B in turn (R85). -/
def colour (p : Params) (m : Memory) (i : Index) (r : Reads) : Colour3 × Reads :=
  let cr := cfgByte p m (.colour i .r) r
  let cg := cfgByte p m (.colour i .g) cr.2
  let cb := cfgByte p m (.colour i .b) cg.2
  (⟨cr.1, cg.1, cb.1⟩, cb.2)

/-- `ChannelOrder()` (R86). -/
def channelOrder (p : Params) (m : Memory) (r : Reads) : ChannelOrder × Reads :=
  let c := cfgByte p m .order r
  (orderOfByte p c.1, c.2)

/-- `Render(p, ph)` for the record at p (R111). -/
def render (p : Params) (m : Memory) (ph : Phase) (rec : LedRec) (r : Reads) : Wire3 × Reads :=
  let c := colour p m (selectIndex ph rec) r
  let o := channelOrder p m c.2
  (permute o.1 c.1, o.2)

/-- The pass over every LED, position 0 first, colour and order read afresh for each (R93, R112). -/
def renderAll (p : Params) (m : Memory) (ph : Phase) : List LedRec → Reads → List Wire3 × Reads
  | [], r => ([], r)
  | rec :: recs, r =>
    let one := render p m ph rec r
    let rest := renderAll p m ph recs one.2
    (one.1 :: rest.1, rest.2)

end Sys2Proof.Machine
end

