-- ==== Sys2Proof/Machine/FlashScheduler.lean ====
section
/-! DEFINITION. FlashScheduler: TICK (43_flash_scheduler.md). -/

namespace Sys2Proof.Machine

/-- The pass of an executed TICK: toggle, render every LED in the new phase, set `dirty` (R112). -/
def tickPass (t : State) : State :=
  let ph := togglePhase t.phase
  let out := renderAll t.params t.store ph t.led ⟨t.cfgFail, t.draws⟩
  { t with phase := ph, frame := out.1, dirty := true, cfgFail := out.2.answers, draws := out.2.draws }

/-- TICK: held or without effect while a transmission is in flight, by `TICK_BUSY_POLICY`; else the pass
(R112, R113). -/
def execTick (st : State) : Result :=
  st.gate (tickHeld st) (fun t => if t.busy then t else tickPass t)

end Sys2Proof.Machine
end

