-- ==== Sys2Proof/Machine/FrameSerializer.lean ====
section
/-! DEFINITION. FrameSerializer: SERVICE, REFRESH and the transfer engine at both levels (44_frame_serializer.md). -/

namespace Sys2Proof.Machine

/-- `StartTx()` (R121). -/
def startTx (t : State) : State :=
  { t with
    busy := true, txState := .bits, txK := 0, txC := 0,
    dirty := dirtyAtStart t.params t.dirty,
    ctlWait := waitAtStart t.params t.ctlWait }

/-- SERVICE: starts a transmission when the frame is dirty and none is in flight; else defers (R119). -/
def execService (st : State) : Result :=
  st.gate false (fun t => if t.dirty && !t.busy then startTx t else t)

/-- REFRESH (R120). -/
def execRefresh (st : State) : Result :=
  st.gate false (fun t => t.setDirty)

/-- The cursor stands on the last bit of the frame (R122). -/
def lastBit (s : State) : Bool := s.txK = s.params.frameBits - 1

/-- Engine step `EMIT`: one full bit period, at whose end the line is low (R122, R129). -/
def emit (s : State) : State :=
  { s with
    wire := s.wire ++ [.bit (frameBit s.frame s.txK)],
    dout := false,
    txState := if lastBit s then .gap else .bits,
    txK := if lastBit s then s.txK else s.txK + 1 }

/-- What the end of the reset gap does beside clearing `dirty`: the `Gap` symbol, the engine idle, the
controller released (R123). -/
def endGap (s : State) : State :=
  { s with wire := s.wire ++ [.gap], txState := .idle, busy := false, ctlWait := .none }

/-- Engine step `COMPLETE`: the whole reset gap (R123). -/
def complete (s : State) : State :=
  { endGap s with dout := false, dirty := dirtyAtComplete s.params s.dirty }

/-- The engine's bit-level step; none is enabled while idle (R122, R123). -/
def engineBit (s : State) : State :=
  match s.txState with
  | .idle => s
  | .bits => emit s
  | .gap => complete s

/-- The level `dout` has in the clock cycle the state stands in (R132). -/
def lineLevel (s : State) : Bool :=
  match s.txState with
  | .bits => s.txC < highCycles s.params (frameBit s.frame s.txK)
  | .idle => false
  | .gap => false

/-- `dout` in this clock cycle (R132). -/
def driveLine (s : State) : State := { s with dout := lineLevel s }

/-- The clock cycle the state stands in is the last of the reset gap (R132). -/
def gapEnds (s : State) : Bool := s.txState = .gap && s.txG = s.params.resetCycles - 1

/-- The engine's clear of `dirty` at the end of the gap under `AT_COMPLETE`. It comes before the command of the same
clock cycle, so that a set of the command wins (R148). -/
def clearDirtyAtGapEnd (s : State) : State :=
  if gapEnds s then { s with dirty := dirtyAtComplete s.params s.dirty } else s

/-- The engine registers at the end of a clock cycle, `dirty` aside (R132). -/
def cycleRegs (s : State) : State :=
  match s.txState with
  | .idle => s
  | .bits =>
    if s.txC = s.params.bitCycles - 1 then
      if lastBit s then
        { s with wire := s.wire ++ [.bit (frameBit s.frame s.txK)], txC := 0, txState := .gap, txG := 0 }
      else
        { s with wire := s.wire ++ [.bit (frameBit s.frame s.txK)], txC := 0, txK := s.txK + 1 }
    else { s with txC := s.txC + 1 }
  | .gap =>
    if s.txG = s.params.resetCycles - 1 then endGap s
    else { s with txG := s.txG + 1 }

/-- One clock cycle in which no command runs (R132). -/
def engineCycle (s : State) : State := cycleRegs (clearDirtyAtGapEnd (driveLine s))

end Sys2Proof.Machine
end

