-- ==== Sys2Proof/Machine/Dispatch.lean ====
section
/-! DEFINITION. The dispatch: one arm per command. -/

namespace Sys2Proof.Machine

def exec (i : Instr) (s : State) : Host.Outcome State Fault Refusal :=
  match i with
  | .upd b e pair => Sys2Proof.Machine.execUpd b e pair s
  | .evt evop k => Sys2Proof.Machine.execEvt evop k s
  | .evtFail evop => Sys2Proof.Machine.execEvtFail evop s
  | .quad am b e pair => Sys2Proof.Machine.execQuad am b e pair s
  | .refresh => Sys2Proof.Machine.execRefresh s
  | .tick => Sys2Proof.Machine.execTick s
  | .service => Sys2Proof.Machine.execService s
  | .freset => Sys2Proof.Machine.execFreset s

end Sys2Proof.Machine
end

