-- ==== Sys2Proof/Machine/Agents.lean ====
section
/-! DEFINITION. The turns of the three agents: controller, transfer engine, environment (60_exceptions.md R143, R148, R155, R156, R158; reset R160 to R163). -/

namespace Sys2Proof.Machine

/-- The refusal an illegal word meets (R142). -/
def refusalOf : DecodeError → Refusal
  | .reservedOpcode op => .reservedOpcode op
  | .nonzeroField op => .nonzeroField op

/-- The controller runs one word (R65): an illegal encoding is refused, a legal one is executed. -/
def runWord (w : Word) (s : State) : Result :=
  match decode w with
  | .instr i => exec i s
  | .illegal e => .refused (refusalOf e)

/-- The controller's turn: no word is presented, or none is accepted while it waits for the engine; else the word at
the head of the port is run (R143). -/
def controllerRun (s : State) : Result :=
  if s.ctlWait = .tx then .next s
  else
    match s.port with
    | [] => .next s
    | w :: _ => runWord w s

/-- The engine registers after a clock cycle that began in `s` and whose command has left `t`: an engine that was
idle at the start of the cycle takes no step in it (R132). -/
def closeCycle (s t : State) : State := if s.txState = .idle then t else cycleRegs t

/-- The controller's turn with the level's engine step: at bit level the command alone; at cycle level the clock cycle
in which it runs, the command testing the registered `busy` and its set of `dirty` winning over the engine's clear
(R148). -/
def controllerTurn (s : State) : Result :=
  match s.params.level with
  | .bit => controllerRun s
  | .cycle =>
    match controllerRun (clearDirtyAtGapEnd (driveLine s)) with
    | .next t => .next (closeCycle s t)
    | .fault r => .fault r
    | .refused r => .refused r

/-- The engine's turn (R122, R123, R132). -/
def engineTurn (s : State) : State :=
  match s.params.level with
  | .bit => engineBit s
  | .cycle => engineCycle s

/-- Boot reset, released: the block's own state of R38 to R43, a `Gap` on the wire trace, fresh draws for the frame.
The words on the port, the store and what the environment has still to do stay (R160, R161, R163). -/
def bootReset (s : State) : State :=
  { s with
    led := List.replicate s.params.capacity ⟨0, 0⟩,
    frame := drawFrame s.draws s.params.capacity,
    draws := s.draws + 3 * s.params.capacity,
    phase := .off, dirty := s.params.dirtyReset, busy := false, txState := .idle, txK := 0, txC := 0, txG := 0,
    dout := false, evt := none, ctlWait := .none, wire := s.wire ++ [.gap] }

/-- Boot reset asserted for `cycles` clock cycles; at cycle level the environment owes at least `RESET_CYCLES` (R162). -/
def resetTurn (cycles : Nat) (s : State) : Result :=
  if s.params.level = .cycle ∧ cycles < s.params.resetCycles then .refused .resetTooShort
  else .next (bootReset s)

/-- The environment presents a command word in this move (R65, R158). -/
def Move.presents : Move → Bool
  | .present _ => true
  | .controller => false
  | .engine => false
  | .setCfg _ _ => false
  | .dropCfg _ => false
  | .failReads _ => false
  | .reset _ => false

/-- Boot reset in this move (R160). -/
def Move.resets : Move → Bool
  | .reset _ => true
  | .controller => false
  | .engine => false
  | .present _ => false
  | .setCfg _ _ => false
  | .dropCfg _ => false
  | .failReads _ => false

/-- One chosen move (R155, R156, R158). -/
def moveStep (m : Move) (s : State) : Result :=
  match m with
  | .controller => controllerTurn s
  | .engine => .next (engineTurn s)
  | .present w => .next { s with port := s.port ++ [w] }
  | .setCfg key v => .next { s with store := Memory.write s.store (keyNum s.params key) v }
  | .dropCfg key => .next { s with store := Memory.erase s.store (keyNum s.params key) }
  | .failReads answers => .next { s with cfgFail := answers }
  | .reset cycles => resetTurn cycles s

/-- The controller can take the word at the head of the port (R143): an illegal word counts, since taking it refuses
the run; a held one does not. -/
def controllerReady (s : State) : Bool :=
  match s.ctlWait, s.port with
  | .tx, _ => false
  | .none, [] => false
  | .none, w :: _ =>
    match decode w with
    | .instr .tick => s.evt.isSome || !tickHeld s
    | _ => true

/-- The default policy, when no move is chosen: the controller if a word can be taken; else the engine unless it is
idle; else the run is stuck inside an open event (R144) or stands still (R159). One interleaving of R156's many;
DESIGN CHOICE: log 4. -/
def autoStep (s : State) : Result :=
  if controllerReady s then controllerTurn s
  else if s.txState ≠ .idle then .next (engineTurn s)
  else if s.evt.isSome ∧ s.port = [] then .fault .stuck
  else .next s

/-- The next step: the first chosen move, or the default policy (R156). -/
def nextStep (s : State) : Result :=
  match s.sched with
  | [] => autoStep s
  | m :: rest => moveStep m { s with sched := rest }

/-- The command word `w` (bits from `nbits` up are 0) at the head of the port, the controller's turn next. -/
def presentFirst (s : State) (nbits w : Nat) : State :=
  { s with port := BitVec.ofNat 64 (w % 2 ^ nbits) :: s.port, sched := .controller :: s.sched }

/-- R10's constraints, checked when an instance is made, with R9's legal values and an injective key map. -/
def paramsOk (p : Params) : Bool :=
  1 ≤ p.capacity ∧ p.capacity ≤ 65536 ∧
  1 ≤ p.h0Cycles ∧ p.h0Cycles < p.h1Cycles ∧ p.h1Cycles < p.bitCycles ∧
  1 ≤ p.resetCycles ∧ 0 < p.fClk ∧
  p.orderMap.length ≤ 256 ∧ p.cfgKeyMap.length = 49 ∧ p.cfgKeyMap.Nodup

/-- An instance of the block right after power-on reset, if its parameters are legal (R10, R164). -/
def instantiate (p : Params) : Option State :=
  if paramsOk p then some (State.resetWith p) else none

end Sys2Proof.Machine
end

