-- ==== Sys2Proof/Machine/Step.lean ====
section
/-! DEFINITION. The step of the machine, and where it takes its next command from. -/

namespace Sys2Proof.Machine

/-- One step of one agent (R156). -/
def step (s : State) : Host.Outcome State Fault Refusal := nextStep s

/-- A command placed so that the very next step runs it: at the head of the command port, with the controller's turn
next (R65; log 5). -/
def State.withFetchWord (s : State) (nbits w : Nat) : State := presentFirst s nbits w

end Sys2Proof.Machine
end

