-- ==== Sys2Proof/Machine/Assembler.lean ====
section
/-! DEFINITION. Assembler syntax and pseudo-commands of CORE-CMD (30_encoding.md R80 to R82). -/

namespace Sys2Proof.Machine

/-- A pair operand: a byte, or its two fields by name (R81). -/
inductive PairOperand where
  | byte (n : Nat)
  | named (on off : Nat)
deriving DecidableEq, Repr

/-- One line of assembly: a command with its operands as written, or a pseudo-command of R82. -/
inductive AsmLine where
  | upd (s e : Nat) (pair : PairOperand)
  | evt (evop k : Nat)
  | quad (am s e : Nat) (pair : PairOperand)
  | evtFail (evop : Nat)
  | refresh
  | tick
  | service
  | freset
  | set (p : Nat) (pair : PairOperand)
  | fill (pair : PairOperand)
  | evOn (k : Nat)
  | evOff (k : Nat)
  | qOn (s e : Nat) (pair : PairOperand)
  | qOff (s e : Nat) (pair : PairOperand)
  | qBoth (s e : Nat) (pair : PairOperand)
  | render
deriving DecidableEq, Repr

/-- A number that fits its field; past the range it is an assembly error (R81). -/
def fitOperand (w n : Nat) : Option (BitVec w) := if n < 2 ^ w then some (BitVec.ofNat w n) else none

/-- The byte of a pair operand, by `PAIR_LAYOUT` (R81). -/
def pairByte (p : Params) : PairOperand → Option Byte
  | .byte n => fitOperand 8 n
  | .named x y =>
    if x ≤ 15 ∧ y ≤ 15 then
      match p.pairLayout with
      | .onHigh => some (BitVec.ofNat 8 (16 * x + y))
      | .onLow => some (BitVec.ofNat 8 (16 * y + x))
    else none

/-- The commands a line stands for (R81, R82); none is an assembly error. -/
def assembleLine (p : Params) : AsmLine → Option (List Instr)
  | .upd s e pair => do return [.upd (← fitOperand 16 s) (← fitOperand 16 e) (← pairByte p pair)]
  | .evt evop k => do return [.evt (← fitOperand 8 evop) (← fitOperand 8 k)]
  | .quad am s e pair => do
    return [.quad (← fitOperand 8 am) (← fitOperand 16 s) (← fitOperand 16 e) (← pairByte p pair)]
  | .evtFail evop => do return [.evtFail (← fitOperand 8 evop)]
  | .refresh => some [.refresh]
  | .tick => some [.tick]
  | .service => some [.service]
  | .freset => some [.freset]
  | .set q pair => do return [.upd (← fitOperand 16 q) (← fitOperand 16 q) (← pairByte p pair)]
  | .fill pair => do return [.upd 0 0xFFFF (← pairByte p pair)]
  | .evOn k => do return [.evt 0x00 (← fitOperand 8 k)]
  | .evOff k => do return [.evt 0x01 (← fitOperand 8 k)]
  | .qOn s e pair => do return [.quad 0x01 (← fitOperand 16 s) (← fitOperand 16 e) (← pairByte p pair)]
  | .qOff s e pair => do return [.quad 0x02 (← fitOperand 16 s) (← fitOperand 16 e) (← pairByte p pair)]
  | .qBoth s e pair => do return [.quad 0x03 (← fitOperand 16 s) (← fitOperand 16 e) (← pairByte p pair)]
  | .render => some [.tick, .service]

/-- A program's commands, line by line; an event must be followed by exactly its QUAD lines (R80, R72). -/
def assemble (p : Params) : List AsmLine → Option (List Instr)
  | [] => some []
  | l :: ls => do return (← assembleLine p l) ++ (← assemble p ls)

/-- The words of a program, for the command port (R65); none when an operand is out of range or a QUAD line is
missing or astray. -/
def assembleWords (p : Params) (ls : List AsmLine) : Option (List Word) := do
  let is ← assemble p ls
  if streamCheck 0 is = none then some (is.map encode) else none

/-- A token of an assembly line. -/
inductive Token where
  | word (cs : List Char)
  | num (n : Nat)
  | comma
  | colon
  | opening
  | closing
deriving DecidableEq, Repr

/-- The value of a digit in a base of at most 16 (R81). -/
def digitValue (base : Nat) (c : Char) : Option Nat :=
  let v :=
    if '0' ≤ c ∧ c ≤ '9' then c.toNat - 48
    else if 'A' ≤ c ∧ c ≤ 'F' then c.toNat - 55
    else if 'a' ≤ c ∧ c ≤ 'f' then c.toNat - 87
    else 16
  if v < base then some v else none

/-- The digits of a number, `_` being a visual separator only (R11). -/
def digitsValue (base : Nat) (n : Nat) : List Char → Option Nat
  | [] => some n
  | c :: cs =>
    if c = '_' then digitsValue base n cs
    else
      match digitValue base c with
      | some d => digitsValue base (base * n + d) cs
      | none => none

/-- The token a run of characters makes: a number, decimal or `0x` hexadecimal, when it begins with a digit; else a
word (R81). -/
def wordToken : List Char → Option Token
  | '0' :: 'x' :: d :: ds => (digitsValue 16 0 (d :: ds)).map .num
  | c :: cs => if '0' ≤ c ∧ c ≤ '9' then (digitsValue 10 0 (c :: cs)).map .num else some (.word (c :: cs))
  | [] => none

/-- The run of characters read so far, as tokens before those that follow. -/
def flushToken (run : List Char) (rest : Option (List Token)) : Option (List Token) :=
  match run with
  | [] => rest
  | _ => do return (← wordToken run.reverse) :: (← rest)

/-- The tokens of one line; `;` starts a comment (R80). Characters 0x7B and 0x7D are the braces of R81. -/
def lexLine (run : List Char) : List Char → Option (List Token)
  | [] => flushToken run (some [])
  | c :: cs =>
    if c = ';' then flushToken run (some [])
    else if c = ' ' ∨ c = '\t' ∨ c = '\r' then flushToken run (lexLine [] cs)
    else if c = ',' then flushToken run ((lexLine [] cs).map (.comma :: ·))
    else if c = ':' then flushToken run ((lexLine [] cs).map (.colon :: ·))
    else if c = Char.ofNat 0x7B then flushToken run ((lexLine [] cs).map (.opening :: ·))
    else if c = Char.ofNat 0x7D then flushToken run ((lexLine [] cs).map (.closing :: ·))
    else lexLine (c :: run) cs

/-- An operand as written. -/
inductive Operand where
  | num (n : Nat)
  | pair (on off : Nat)
deriving DecidableEq, Repr

/-- The operands of a line, separated by commas; a pair in braces comes last (R80, R81). -/
def parseOperands : List Token → Option (List Operand)
  | [] => some []
  | [.num n] => some [.num n]
  | [.opening, .word ['o', 'n'], .colon, .num x, .comma, .word ['o', 'f', 'f'], .colon, .num y, .closing] =>
    some [.pair x y]
  | .num n :: .comma :: t :: ts => (parseOperands (t :: ts)).map (.num n :: ·)
  | _ => none

/-- A number or a braced pair as the pair operand. -/
def Operand.asPair : Operand → PairOperand
  | .num n => .byte n
  | .pair x y => .named x y

/-- The line a mnemonic and its operands make (R80, R82); mnemonics are upper case. -/
def lineOf (name : List Char) (ops : List Operand) : Option AsmLine :=
  match ops with
  | [] =>
    if name = "REFRESH".toList then some .refresh
    else if name = "TICK".toList then some .tick
    else if name = "SERVICE".toList then some .service
    else if name = "FRESET".toList then some .freset
    else if name = "RENDER".toList then some .render
    else none
  | [a] =>
    if name = "FILL".toList then some (.fill a.asPair)
    else
      match a with
      | .num n =>
        if name = "EVT.FAIL".toList then some (.evtFail n)
        else if name = "EVON".toList then some (.evOn n)
        else if name = "EVOFF".toList then some (.evOff n)
        else none
      | .pair _ _ => none
  | [.num m, a] =>
    if name = "SET".toList then some (.set m a.asPair)
    else
      match a with
      | .num n => if name = "EVT".toList then some (.evt m n) else none
      | .pair _ _ => none
  | [.num m, .num n, a] =>
    if name = "UPD".toList then some (.upd m n a.asPair)
    else if name = "Q.ON".toList then some (.qOn m n a.asPair)
    else if name = "Q.OFF".toList then some (.qOff m n a.asPair)
    else if name = "Q.BOTH".toList then some (.qBoth m n a.asPair)
    else none
  | [.num l, .num m, .num n, a] =>
    if name = "QUAD".toList then some (.quad l m n a.asPair) else none
  | _ => none

/-- One line of text: blank (nothing but a comment), or a command (R80). -/
def parseLine (cs : List Char) : Option (List AsmLine) :=
  match lexLine [] cs with
  | some [] => some []
  | some (.word name :: ts) => do return [← lineOf name (← parseOperands ts)]
  | _ => none

/-- The lines of a text (R80: one command per line). -/
def textLines (run : List Char) : List Char → List (List Char)
  | [] => [run.reverse]
  | c :: cs => if c = '\n' then run.reverse :: textLines [] cs else textLines (c :: run) cs

/-- Every line of a program text, parsed. -/
def parseLines : List (List Char) → Option (List AsmLine)
  | [] => some []
  | l :: ls => do return (← parseLine l) ++ (← parseLines ls)

/-- A program text assembled to the words of the command port (R80 to R82). -/
def assembleText (p : Params) (cs : List Char) : Option (List Word) := do
  assembleWords p (← parseLines (textLines [] cs))

end Sys2Proof.Machine
end

