-- ==== Sys2Proof/Safety.lean ====
section
/-! DEFINITION. What a reachable state looks like, and what the end of a run is (10_state.md R28, R30, R32; 60_exceptions.md R144, R159). -/

namespace Sys2Proof.Machine

/-- The invariant of every reachable state. -/
structure Coherent (s : State) : Prop where
  /-- The parameters are legal (R10). -/
  params : paramsOk s.params = true
  /-- One record a position (R21). -/
  led : s.led.length = s.params.capacity
  /-- One entry a position (R27). -/
  frame : s.frame.length = s.params.capacity
  /-- `busy = 1` exactly when the engine is not idle (R28). -/
  busy : s.busy = true ↔ s.txState ≠ .idle
  /-- The cursor's range (R23). -/
  txK : s.txK < s.params.frameBits
  /-- In the gap the cursor has stayed on the last bit (R23). -/
  gapK : s.txState = .gap → s.txK = s.params.frameBits - 1
  /-- The cycle counter's range (R29); it counts only inside a bit period, at cycle level. -/
  txC : s.txC < s.params.bitCycles
  idleC : s.txState ≠ .bits ∨ s.params.level = .bit → s.txC = 0
  /-- The gap counter's range (R29). -/
  txG : s.txG < s.params.resetCycles
  /-- The line is low whenever no bit period is in progress (R30, R134). -/
  dout : s.txState ≠ .bits → s.dout = false
  /-- An open event expects a quadruple, and never holds more than `MAX_QUADS` (R31, R9). -/
  evt : ∀ a, s.evt = some a → 1 ≤ a.expected ∧ a.expected + a.quads.length ≤ maxQuads
  /-- The controller waits exactly while a transmission is in flight under `BLOCKING` (R32, R124). -/
  wait : s.ctlWait = .tx ↔ s.params.txStrategy = .blocking ∧ s.busy = true
  /-- A waiting controller has no event open: SERVICE is not accepted inside one (R143). -/
  waitEvt : s.ctlWait = .tx → s.evt = none
  /-- The configuration store is in its one form. -/
  store : Memory.wf s.store

/-- No wait and no open event: the first two checks of R143 pass. -/
abbrev Accepting (s : State) : Prop := s.ctlWait = .none ∧ s.evt = none

/-- Every configuration read of the coming pass succeeds, key by key with the byte `v` gives (R49). -/
abbrev StoreHolds (s : State) (v : CfgKey → Byte) : Prop :=
  s.cfgFail = [] ∧ ∀ key, Memory.read s.store (keyNum s.params key) = some (v key)

/-- A final state (R159): the environment presents no further word, no event is open, no wait, the engine idle. Moves that
present no word may be left. The other clause, that no refusal is marked, holds of every state, since a refused run has
no further state. -/
abbrev Final (s : State) : Prop :=
  s.port = [] ∧ (∀ m ∈ s.sched, m.presents = false) ∧ s.evt = none ∧ s.ctlWait = .none ∧ s.txState = .idle

/-- A stuck state (R144): an event is open and its QUAD words never arrive, since no further word is presented and no
boot reset discards the event. The engine may still be running. -/
abbrev Stuck (s : State) : Prop :=
  s.port = [] ∧ (∀ m ∈ s.sched, m.presents = false ∧ m.resets = false) ∧ s.evt.isSome = true

end Sys2Proof.Machine
end

