-- ==== Sys2Proof/Certificates/Slice0/Obligations.lean ====
section
/-! DEFINITION. The statements about the model, by the numbered rules of spec/. -/

open Sys2Proof Sys2Proof.Machine

/-! ### Encoding -/

/-- R83: the example commands have the example words, and the words decode to the commands. -/
def Obligations.ExampleWordsDecode : Prop :=
  ∀ x ∈ ([ (.upd 0 3 0x10, 0x1000000000030010), (.upd 2 10 0x50, 0x10000002000A0050),
      (.evt 0x90 3, 0x2090000000000300), (.quad 0x01 0 3 0x23, 0x3001000000030023),
      (.evtFail 0x91, 0x2191000000000000), (.refresh, 0x4000000000000000), (.tick, 0x5000000000000000),
      (.service, 0x6000000000000000), (.freset, 0x7000000000000000) ] : List (Instr × Word)),
    encode x.1 = x.2 ∧ decode x.2 = .instr x.1

/-- R66 to R73: decoding the word of a command gives the command back, every operand at every value. -/
def Obligations.DecodeOfEncode : Prop :=
  ∀ i : Instr, decode (encode i) = .instr i

/-- R66 to R73: a word that decodes to a command is the word of that command; no bit of it is dropped. -/
def Obligations.EncodeOfDecode : Prop :=
  ∀ (w : Word) (i : Instr), decode w = .instr i → encode i = w

/-- R69 to R73: a word is legal exactly when it matches a row of the table under the row's mask, and then it matches
the row of the command it decodes to and no other. -/
def Obligations.DecodeFollowsTheOpcodeTable : Prop :=
  (∀ w : Word, (∃ i, decode w = .instr i) ↔ ∃ r ∈ opRows, r.hit w = true) ∧
  (∀ (w : Word) (i : Instr) (r : OpRow), decode w = .instr i → r ∈ opRows → r.hit w = true → r.mnemonic = i.mnemonic)

/-- R76, R142: a word with a reserved OP is illegal, and the run is refused by name when the controller takes it, at
either level. That inside an open event too the encoding is the ground named is the model's (log 11). -/
def Obligations.ReservedOpcodeIsRefused : Prop :=
  ∀ w : Word, (w.extractLsb' 60 4 = 0 ∨ 8 ≤ (w.extractLsb' 60 4).toNat) →
    decode w = .illegal (.reservedOpcode (w.extractLsb' 60 4)) ∧
    ∀ (s : State) (ms : List Move) (ws : List Word),
      s.sched = .controller :: ms → s.port = w :: ws → s.ctlWait = .none →
        step s = .refused (.reservedOpcode (w.extractLsb' 60 4))

/-- R77, R142: a word with a legal OP that matches no row has a nonzero bit where its row requires 0; it is illegal,
and the run is refused by name when the controller takes it, at either level. That inside an open event too the
encoding is the ground named is the model's (log 11). -/
def Obligations.NonzeroReservedBitIsRefused : Prop :=
  ∀ w : Word, 1 ≤ (w.extractLsb' 60 4).toNat → (w.extractLsb' 60 4).toNat ≤ 7 →
    (∀ r ∈ opRows, r.hit w = false) →
    decode w = .illegal (.nonzeroField (w.extractLsb' 60 4)) ∧
    ∀ (s : State) (ms : List Move) (ws : List Word),
      s.sched = .controller :: ms → s.port = w :: ws → s.ctlWait = .none →
        step s = .refused (.nonzeroField (w.extractLsb' 60 4))

/-! ### The command port and enabledness -/

/-- R65, R143, R156: the controller's step runs the command the head of the port decodes to. At bit level the step is
`exec` of it; at cycle level the engine's clock cycle stands around it (the line and the engine's clear of `dirty`
first, the engine registers after), and that the command takes part in exactly one clock cycle is the model's choice
(log 16); with no move chosen the default policy (log 4) runs it when it is not held; and a
word placed by `withFetchWord` is the next to run, which is the model's form of presenting it (log 5). -/
def Obligations.StepRunsTheWordAtThePort : Prop :=
  (∀ (s : State) (ms : List Move) (w : Word) (ws : List Word) (i : Instr),
    s.sched = .controller :: ms → s.port = w :: ws → decode w = .instr i → s.params.level = .bit →
      step s = exec i { s with sched := ms }) ∧
  (∀ (s t : State) (ms : List Move) (w : Word) (ws : List Word) (i : Instr),
    s.sched = .controller :: ms → s.port = w :: ws → decode w = .instr i → s.params.level = .cycle →
    exec i (clearDirtyAtGapEnd (driveLine { s with sched := ms })) = .next t →
      step s = .next (if s.txState = .idle then t else cycleRegs t)) ∧
  (∀ (s : State) (w : Word) (ws : List Word) (i : Instr),
    s.sched = [] → s.port = w :: ws → decode w = .instr i → s.params.level = .bit → s.ctlWait = .none →
    (i = .tick → s.busy = true → s.params.tickBusyPolicy = .skip ∨ s.evt.isSome = true) →
      step s = exec i s) ∧
  (∀ (s : State) (w : Nat) (i : Instr),
    w < 2 ^ 64 → decodeTableWord 64 w = some i → s.params.level = .bit →
      step (s.withFetchWord 64 w) = exec i { s with port := BitVec.ofNat 64 w :: s.port })

/-- R143 item 1, R124: while the controller waits for the engine no command is accepted: every command leaves the state as
it is, and the controller's turn does nothing to the block at bit level; at cycle level the turn is the engine's clock
cycle alone, the port, the records, the event, the phase and the frame as they were. A next state with nothing done is
the model's form of a hold (log 10). That an illegal word too is left on the port, and refused only after the wait, is
the model's reading of R143's order (log 11). -/
def Obligations.NothingIsAcceptedDuringTheWait : Prop :=
  (∀ (i : Instr) (s : State), s.ctlWait = .tx → exec i s = .next s) ∧
  (∀ (s : State) (ms : List Move), s.ctlWait = .tx → s.params.level = .bit → s.sched = .controller :: ms →
    step s = .next { s with sched := ms }) ∧
  (∀ (s : State) (ms : List Move), s.ctlWait = .tx → s.params.level = .cycle → s.sched = .controller :: ms →
    ∃ t, step s = .next t ∧ t = engineCycle { s with sched := ms } ∧
      t.port = s.port ∧ t.led = s.led ∧ t.evt = s.evt ∧ t.phase = s.phase ∧ t.frame = s.frame)

/-- R78, R142: a QUAD outside an event and any other command inside one are refused. -/
def Obligations.SequenceErrorsAreRefused : Prop :=
  (∀ (am : Byte) (b e : Pos) (pair : Byte) (s : State), s.ctlWait = .none → s.evt = none →
    exec (.quad am b e pair) s = .refused .strayQuad) ∧
  (∀ (i : Instr) (s : State), s.ctlWait = .none → s.evt.isSome = true →
    (∀ am b e pair, i ≠ .quad am b e pair) → exec i s = .refused .eventInterrupted)

/-- R142, R79, R162: a step refuses only for an illegal word or word sequence at the head of the port, or for a reset
shorter than its duty; never for want of a meaning. Which ground is named where two hold is log 11, the refusal of a short
reset log 17. -/
def Obligations.OnlyIllegalRunsAreRefused : Prop :=
  ∀ (s : State) (r : Refusal), step s = .refused r →
    (∃ w ws, s.port = w :: ws ∧
      ((∃ op, decode w = .illegal (.reservedOpcode op) ∧ r = .reservedOpcode op) ∨
       (∃ op, decode w = .illegal (.nonzeroField op) ∧ r = .nonzeroField op) ∨
       (∃ am b e pair, decode w = .instr (.quad am b e pair) ∧ s.evt = none ∧ r = .strayQuad) ∨
       (∃ i, decode w = .instr i ∧ s.evt.isSome = true ∧ (∀ am b e pair, i ≠ .quad am b e pair) ∧
         r = .eventInterrupted))) ∨
    (∃ n ms, s.sched = .reset n :: ms ∧ s.params.level = .cycle ∧ n < s.params.resetCycles ∧ r = .resetTooShort)

/-! ### EventToRangeMapper -/

/-- R97: the two fields of a pair byte under either layout. -/
def Obligations.PairByteFields : Prop :=
  ∀ b : Byte,
    (decodePair .onHigh b).on.toNat = b.toNat / 16 ∧ (decodePair .onHigh b).off.toNat = b.toNat % 16 ∧
    (decodePair .onLow b).on.toNat = b.toNat % 16 ∧ (decodePair .onLow b).off.toNat = b.toNat / 16

/-- R98 to R100, R107, R108: UPD completes, busy or not; every record from the start to the clamped end takes the pair,
every other is unchanged, `dirty` is set, and nothing else changes but the port. -/
def Obligations.UpdOverwritesTheClampedRange : Prop :=
  ∀ (b e : Pos) (pair : Byte) (s : State), Accepting s →
    ∃ t, exec (.upd b e pair) s = .next t ∧
      t = { s with port := s.port.tail, led := t.led, dirty := true } ∧
      t.led.length = s.led.length ∧
      ∀ p : Nat, t.led[p]? = (s.led[p]?).map fun r =>
        if b.toNat ≤ p ∧ p ≤ min e.toNat (s.params.capacity - 1) then decodePair s.params.pairLayout pair else r

/-- R99, R141 X2: an empty or inverted range, a start at or beyond CAPACITY included, changes no record, and `dirty` is
set all the same. -/
def Obligations.EmptyRangeOnlySetsDirty : Prop :=
  ∀ (b e : Pos) (pair : Byte) (s : State), Accepting s →
    min e.toNat (s.params.capacity - 1) < b.toNat →
      exec (.upd b e pair) s = .next { s with port := s.port.tail, dirty := true }

/-- R109: of two updates in succession the later one's pair wins where their ranges overlap, and the frame and the
phase are as before. -/
def Obligations.LaterUpdateWins : Prop :=
  ∀ (b e b' e' : Pos) (pair pair' : Byte) (s : State), Accepting s →
    ∃ t u, exec (.upd b e pair) s = .next t ∧ exec (.upd b' e' pair') t = .next u ∧
      u.frame = s.frame ∧ u.phase = s.phase ∧
      ∀ p : Nat, u.led[p]? = (s.led[p]?).map fun r =>
        if b'.toNat ≤ p ∧ p ≤ min e'.toNat (s.params.capacity - 1) then decodePair s.params.pairLayout pair'
        else if b.toNat ≤ p ∧ p ≤ min e.toNat (s.params.capacity - 1) then decodePair s.params.pairLayout pair
        else r

/-- R75, R101, R103: an EVT header completes: with k = 0 it only sets `dirty`; else it only opens the event, with the
polarity of bit 0 of its opcode, k quadruples expected and none received. -/
def Obligations.EvtHeaderOpensTheEvent : Prop :=
  ∀ (evop k : Byte) (s : State), Accepting s →
    exec (.evt evop k) s = .next
      (if k = 0 then { s with port := s.port.tail, dirty := true }
       else { s with
         port := s.port.tail,
         evt := some ⟨if evop.toNat % 2 = 0 then .on else .off, k.toNat, []⟩ })

/-- R75, R31: a QUAD that is not the last expected is received into `evt`, in order, and nothing else changes. -/
def Obligations.QuadIsReceivedInOrder : Prop :=
  ∀ (am : Byte) (b e : Pos) (pair : Byte) (acc : EvtAcc) (s : State),
    s.ctlWait = .none → s.evt = some acc → 2 ≤ acc.expected →
      exec (.quad am b e pair) s = .next
        { s with
          port := s.port.tail,
          evt := some ⟨acc.pol, acc.expected - 1, acc.quads ++ [⟨am, b, e, pair⟩]⟩ }

/-- R75, R102, R103, R109: the last QUAD expected applies the whole event: each record takes the pair of the last
quadruple whose mask bit matches the polarity and whose clamped range holds its position, and is unchanged where there
is none; the event is closed, `dirty` is set, and nothing else changes but the port. -/
def Obligations.LastQuadAppliesTheEvent : Prop :=
  ∀ (am : Byte) (b e : Pos) (pair : Byte) (acc : EvtAcc) (s : State),
    s.ctlWait = .none → s.evt = some acc → acc.expected = 1 →
      ∃ t, exec (.quad am b e pair) s = .next t ∧
        t = { s with port := s.port.tail, evt := none, led := t.led, dirty := true } ∧
        ∀ p : Nat, t.led[p]? = (s.led[p]?).map fun r =>
          match (acc.quads ++ [(⟨am, b, e, pair⟩ : Quad)]).reverse.find? (fun q =>
            (match acc.pol with | .on => q.am.getLsbD 0 | .off => q.am.getLsbD 1) &&
            decide (q.s.toNat ≤ p ∧ p ≤ min q.e.toNat (s.params.capacity - 1))) with
          | some q => decodePair s.params.pairLayout q.pair
          | none => r

/-- R75, R103: an event is applied all or nothing. Of an EVT header on the port with exactly its k QUAD words behind it,
taken one by one, the header opens `evt` and each QUAD is received into it; the records, the flags and the frame are as
they were until the last word is taken; after it the port holds what followed, the event is closed, `dirty` is set and each record has the pair of the last matching
quadruple that covers it. -/
def Obligations.EventIsAllOrNothing : Prop :=
  ∀ (evop k : Byte) (qs : List Quad) (ws : List Word) (ms : List Move) (s : State), Accepting s →
    s.params.level = .bit → qs.length = k.toNat →
    s.port = encode (.evt evop k) :: (qs.map fun q => encode (.quad q.am q.s q.e q.pair)) ++ ws →
    s.sched = List.replicate (k.toNat + 1) .controller ++ ms →
      (∀ n, n < k.toNat + 1 → ∃ t, Host.Core.run Sys2Proof.core n s = .next t ∧
        t.led = s.led ∧ t.dirty = s.dirty ∧ t.frame = s.frame ∧ t.phase = s.phase ∧ t.busy = s.busy ∧
        (n ≠ 0 → t.evt = some ⟨polarity evop, k.toNat + 1 - n, qs.take (n - 1)⟩)) ∧
      ∃ t, Host.Core.run Sys2Proof.core (k.toNat + 1) s = .next t ∧
        t = { s with port := ws, sched := ms, led := t.led, dirty := true } ∧
        ∀ p : Nat, t.led[p]? = (s.led[p]?).map fun r =>
          match qs.reverse.find? (fun q : Quad =>
            amMatches (polarity evop) q.am &&
            decide (q.s.toNat ≤ p ∧ p ≤ min q.e.toNat (s.params.capacity - 1))) with
          | some q => decodePair s.params.pairLayout q.pair
          | none => r

/-- R104: EVT.FAIL completes with no state change: only its word leaves the port; `dirty` is not set. -/
def Obligations.FailedEventHasNoEffect : Prop :=
  ∀ (evop : Byte) (s : State), Accepting s →
    exec (.evtFail evop) s = .next { s with port := s.port.tail }

/-- R105, R44: FRESET makes every record (on: 0, off: 0) and changes nothing else. -/
def Obligations.FresetClearsOnlyTheRecords : Prop :=
  ∀ s : State, Accepting s →
    ∃ t, exec .freset s = .next t ∧
      t = { s with port := s.port.tail, led := t.led } ∧
      ∀ p : Nat, t.led[p]? = (s.led[p]?).map fun _ => (⟨0, 0⟩ : LedRec)

/-- R101, R102, D7, D8: bits 7:1 of an event opcode and bits 7:2 of an action mask have no effect: opcodes that agree
in bit 0 are the same header, and masks that agree in bits 1:0 apply a quadruple alike. -/
def Obligations.IgnoredBitsHaveNoEffect : Prop :=
  (∀ (evop evop' k : Byte) (s : State), evop.toNat % 2 = evop'.toNat % 2 →
    exec (.evt evop k) s = exec (.evt evop' k) s) ∧
  (∀ (am am' : Byte) (b e : Pos) (pair : Byte) (acc : EvtAcc) (s : State), am.toNat % 4 = am'.toNat % 4 →
    s.evt = some acc → acc.expected = 1 →
      exec (.quad am b e pair) s = exec (.quad am' b e pair) s)

/-! ### PaletteStore and FlashScheduler -/

/-- R88, R89, R95: each order carries each channel of a colour once: permuting by an order and then by its inverse in
R88's table gives the colour back; the four orders R95 names are their own inverses, GBR and BRG each other's. -/
def Obligations.OrdersAreBijections : Prop :=
  (∀ (o : ChannelOrder) (t : Colour3),
    permute (orderInverse o) ⟨(permute o t).b0, (permute o t).b1, (permute o t).b2⟩ = ⟨t.r, t.g, t.b⟩) ∧
  (∀ t : Colour3,
    permute .rgb t = ⟨t.r, t.g, t.b⟩ ∧ permute .rbg t = ⟨t.r, t.b, t.g⟩ ∧ permute .grb t = ⟨t.g, t.r, t.b⟩ ∧
    permute .gbr t = ⟨t.g, t.b, t.r⟩ ∧ permute .brg t = ⟨t.b, t.r, t.g⟩ ∧ permute .bgr t = ⟨t.b, t.g, t.r⟩) ∧
  orderInverse .rgb = .rgb ∧ orderInverse .rbg = .rbg ∧ orderInverse .grb = .grb ∧ orderInverse .bgr = .bgr ∧
  orderInverse .gbr = .brg ∧ orderInverse .brg = .gbr

/-- R87, R90: under the default ORDER_MAP bytes 0 to 5 name the six orders and every other byte DEFAULT_ORDER, whatever
that is; DEFAULT_ORDER's default is RGB. -/
def Obligations.DefaultOrderMap : Prop :=
  Params.default.defaultOrder = .rgb ∧
  ∀ (p : Params) (v : Byte), p.orderMap = Params.default.orderMap →
    orderOfByte p v =
      (if v = 0 then .rgb else if v = 1 then .rbg else if v = 2 then .grb else if v = 3 then .gbr
       else if v = 4 then .brg else if v = 5 then .bgr else p.defaultOrder)

/-- R49, R91: a read that succeeds gives the byte stored under the key; one that fails, by the environment's answer or
because the store holds no byte there (log 6), gives a fresh draw, of which nothing is known. Each read uses one answer. -/
def Obligations.FailedReadIsAFreshDraw : Prop :=
  ∀ (p : Params) (m : Memory) (key : CfgKey) (as : List Bool) (d : Nat),
    (∀ v, Memory.read m (keyNum p key) = some v →
      cfgByte p m key ⟨false :: as, d⟩ = (v, ⟨as, d⟩) ∧ cfgByte p m key ⟨[], d⟩ = (v, ⟨[], d⟩)) ∧
    cfgByte p m key ⟨true :: as, d⟩ = (freeByte d, ⟨as, d + 1⟩) ∧
    (Memory.read m (keyNum p key) = none →
      cfgByte p m key ⟨false :: as, d⟩ = (freeByte d, ⟨as, d + 1⟩) ∧
      cfgByte p m key ⟨[], d⟩ = (freeByte d, ⟨[], d + 1⟩))

/-- R112, R91, R111, R114: with no transmission in flight a TICK completes whatever the reads answer: the phase toggles,
`dirty` is set, every frame entry is written, and nothing else of the block changes. Entry p is the permutation, by the
order read for it, of the three channels read for it, each byte the stored one or a draw as its read answers. The reads
of LED p take the answers from number 4p on and the draws from number `d p` on; the answers used up and the draws taken
are the model's own, logs 3 and 7. -/
def Obligations.TickCompletesWhateverTheReadsAnswer : Prop :=
  ∀ s : State, Accepting s → s.busy = false →
    ∃ (t : State) (d : Nat → Nat), exec .tick s = .next t ∧
      t = { s with
        port := s.port.tail, phase := t.phase, frame := t.frame, dirty := true,
        cfgFail := s.cfgFail.drop (4 * s.led.length), draws := d s.led.length } ∧
      t.phase = (if s.phase = .on then .off else .on) ∧
      t.frame.length = s.led.length ∧ d 0 = s.draws ∧
      ∀ (p : Nat) (rec : LedRec), s.led[p]? = some rec →
        let i := if t.phase = .on then rec.on else rec.off
        let r := cfgByte s.params s.store (.colour i .r) ⟨s.cfgFail.drop (4 * p), d p⟩
        let g := cfgByte s.params s.store (.colour i .g) r.2
        let b := cfgByte s.params s.store (.colour i .b) g.2
        let o := cfgByte s.params s.store .order b.2
        t.frame[p]? = some (permute (orderOfByte s.params o.1) ⟨r.1, g.1, b.1⟩) ∧ d (p + 1) = o.2.draws

/-- R111, R112, R85, R86, R92: with every read successful, a TICK toggles the phase and writes each frame entry with the
stored colour of the index the new phase selects, unscaled, in the stored channel order; `dirty` is set and nothing else
changes. -/
def Obligations.TickRendersTheNewPhase : Prop :=
  ∀ (s : State) (v : CfgKey → Byte), Accepting s → s.busy = false → StoreHolds s v →
    exec .tick s = .next
      { s with
        port := s.port.tail,
        phase := if s.phase = .on then .off else .on,
        dirty := true,
        frame := s.led.map fun r =>
          let i := if s.phase = .on then r.off else r.on
          permute (orderOfByte s.params (v .order)) ⟨v (.colour i .r), v (.colour i .g), v (.colour i .b)⟩ }

/-- R113: with a transmission in flight a TICK is not accepted under HOLD and stays at the head of the port; under SKIP
it is accepted and has no effect. That a held TICK is a next state with nothing done is the model's form (log 10). -/
def Obligations.TickInFlightIsHeldOrSkipped : Prop :=
  ∀ s : State, Accepting s → s.busy = true →
    (s.params.tickBusyPolicy = .hold → exec .tick s = .next s) ∧
    (s.params.tickBusyPolicy = .skip → exec .tick s = .next { s with port := s.port.tail })

/-- R115: of three TICKs in succession, every read successful and the store unchanged, the third leaves the phase and
the frame as the first left them. -/
def Obligations.TwoTicksReproduceTheFrame : Prop :=
  ∀ (s : State) (v : CfgKey → Byte), Accepting s → s.busy = false → StoreHolds s v →
    ∃ a b c, exec .tick s = .next a ∧ exec .tick a = .next b ∧ exec .tick b = .next c ∧
      c.phase = a.phase ∧ c.frame = a.frame ∧ c.led = s.led

/-- R117, R39: after boot reset the n-th TICK executed enters ON when n is odd and OFF when n is even. -/
def Obligations.PhaseSequenceFromReset : Prop :=
  ∀ (p : Params) (n : Nat), p.level = .bit →
    ∃ t, Host.Core.run Sys2Proof.core n
        { State.resetWith p with
          port := List.replicate n 0x5000000000000000, sched := List.replicate n .controller } = .next t ∧
      t.port = [] ∧ t.phase = (if n % 2 = 1 then .on else .off)

/-- R48, D30: no rule depends on the numeric keys: two instances that differ only in CFG_KEY_MAP, each store holding the
same byte, or none, under every key, give the same phase, frame and draws at a TICK. -/
def Obligations.KeyNumbersDoNotMatter : Prop :=
  ∀ (s s' t : State) (map : List Nat) (m : Memory),
    s' = { s with params := { s.params with cfgKeyMap := map }, store := m } →
    (∀ key, Memory.read m (keyNum s'.params key) = Memory.read s.store (keyNum s.params key)) →
    exec .tick s = .next t →
      exec .tick s' = .next { t with params := s'.params, store := m }

/-! ### FrameSerializer, bit level -/

/-- R51, R118: the frame's bits in the order the engine sends them are the bytes of the entries, LED 0 first, slot 0
first, each most significant bit first. -/
def Obligations.FrameBitsInWireOrder : Prop :=
  ∀ frame : List Wire3,
    (List.range (24 * frame.length)).map (frameBit frame) =
      frame.flatMap fun t => [t.b0, t.b1, t.b2].flatMap fun b =>
        [b.getLsbD 7, b.getLsbD 6, b.getLsbD 5, b.getLsbD 4, b.getLsbD 3, b.getLsbD 2, b.getLsbD 1, b.getLsbD 0]

/-- R119, R121, R124: SERVICE completes: with `dirty` set and no transmission in flight it starts one, `dirty` cleared
under AT_START, the controller waiting under BLOCKING; otherwise it has no effect, and a set `dirty` stays set. -/
def Obligations.ServiceStartsOrDefers : Prop :=
  ∀ s : State, Accepting s →
    (s.dirty = true → s.busy = false →
      exec .service s = .next
        { s with
          port := s.port.tail, busy := true, txState := .bits, txK := 0, txC := 0,
          dirty := decide (s.params.dirtyClear = .atComplete),
          ctlWait := if s.params.txStrategy = .blocking then .tx else .none }) ∧
    (s.dirty = false ∨ s.busy = true → exec .service s = .next { s with port := s.port.tail })

/-- R120: REFRESH sets `dirty` and changes nothing else. -/
def Obligations.RefreshOnlySetsDirty : Prop :=
  ∀ s : State, Accepting s → exec .refresh s = .next { s with port := s.port.tail, dirty := true }

/-- R122: an engine step in BITS emits the bit under the cursor, and moves the cursor on, or after the last bit moves to
GAP and leaves the cursor. That the line ends the period low is log 13. -/
def Obligations.EmitSendsOneBit : Prop :=
  ∀ (s : State) (ms : List Move), s.params.level = .bit → s.sched = .engine :: ms → s.txState = .bits →
    step s = .next
      { s with
        sched := ms, wire := s.wire ++ [.bit (frameBit s.frame s.txK)], dout := false,
        txState := if s.txK = 24 * s.params.capacity - 1 then .gap else .bits,
        txK := if s.txK = 24 * s.params.capacity - 1 then s.txK else s.txK + 1 }

/-- R123: an engine step in GAP stands for the whole reset gap: a `Gap` on the wire, the engine idle, `busy` cleared,
`dirty` cleared under AT_COMPLETE alone, the controller released. In IDLE no engine step is enabled: a chosen
engine move is only used up (log 4). -/
def Obligations.CompleteEndsTheTransmission : Prop :=
  ∀ (s : State) (ms : List Move), s.params.level = .bit → s.sched = .engine :: ms →
    (s.txState = .gap →
      step s = .next
        { s with
          sched := ms, wire := s.wire ++ [.gap], dout := false, txState := .idle, busy := false,
          dirty := s.dirty && decide (s.params.dirtyClear = .atStart), ctlWait := .none }) ∧
    (s.txState = .idle → step s = .next { s with sched := ms })

/-- R126, R127, R135: a transmission just started runs to completion under the engine's steps: it puts the bits of the
frame, as it was at the start, on the wire, in order, then one `Gap`, and then the engine is idle and nothing but the
engine's own state has changed. -/
def Obligations.TransmissionSendsTheWholeFrame : Prop :=
  ∀ (s : State) (ms : List Move), Coherent s → s.params.level = .bit → s.txState = .bits → s.txK = 0 →
    s.sched = List.replicate (24 * s.params.capacity + 1) .engine ++ ms →
      Host.Core.run Sys2Proof.core (24 * s.params.capacity + 1) s = .next
        { s with
          sched := ms,
          wire := s.wire ++ ((List.range (24 * s.params.capacity)).map fun k => .bit (frameBit s.frame k)) ++ [.gap],
          dout := false, txState := .idle, txK := 24 * s.params.capacity - 1, busy := false,
          dirty := s.dirty && decide (s.params.dirtyClear = .atStart), ctlWait := .none }

/-- R143, R127, R124, R113: no hold lasts for ever. With no move chosen, so under the default policy, which is the model's
choice (log 4), a TICK held at the head of the port, by HOLD or by the wait of BLOCKING, executes right after the steps
the transmission in flight still needs: one a bit from the cursor on and one for the gap. Its word leaves the port and
the phase toggles. -/
def Obligations.HeldTickExecutesAfterCompletion : Prop :=
  ∀ (s : State) (ws : List Word), Coherent s → s.params.level = .bit → s.sched = [] → s.evt = none → s.busy = true →
    s.params.tickBusyPolicy = .hold ∨ s.params.txStrategy = .blocking →
    s.port = 0x5000000000000000 :: ws →
      (∀ n, n ≤ (if s.txState = .bits then 24 * s.params.capacity - s.txK + 1 else 1) →
        ∃ t, Host.Core.run Sys2Proof.core n s = .next t ∧ t.port = s.port ∧ t.phase = s.phase ∧ t.frame = s.frame) ∧
      ∃ t, Host.Core.run Sys2Proof.core
          ((if s.txState = .bits then 24 * s.params.capacity - s.txK + 1 else 1) + 1) s = .next t ∧
        t.port = ws ∧ t.busy = false ∧ t.phase = (if s.phase = .on then .off else .on)

/-! ### FrameSerializer, cycle level -/

/-- R132: BIT_CYCLES clock cycles from the start of a bit period are one EMIT. The gap counter restarts with the gap. -/
def Obligations.BitPeriodRefinesEmit : Prop :=
  ∀ (s : State) (ms : List Move), paramsOk s.params = true → s.params.level = .cycle → s.txState = .bits → s.txC = 0 →
    s.sched = List.replicate s.params.bitCycles .engine ++ ms →
      Host.Core.run Sys2Proof.core s.params.bitCycles s = .next
        { emit { s with sched := ms } with
          txG := if s.txK = 24 * s.params.capacity - 1 then 0 else s.txG }

/-- R132: RESET_CYCLES clock cycles from the start of the gap are one COMPLETE. That the gap counter keeps
its last value is log 15. -/
def Obligations.GapRefinesComplete : Prop :=
  ∀ (s : State) (ms : List Move), paramsOk s.params = true → s.params.level = .cycle → s.txState = .gap → s.txG = 0 →
    s.sched = List.replicate s.params.resetCycles .engine ++ ms →
      Host.Core.run Sys2Proof.core s.params.resetCycles s = .next
        { complete { s with sched := ms } with txG := s.params.resetCycles - 1 }

/-- R128, R129, R132: in a bit period of BIT_CYCLES clock cycles the line is high in the first H1_CYCLES cycles of a 1,
or the first H0_CYCLES of a 0, and low in the others. The defaults are 20 and 10 of 30 cycles. -/
def Obligations.BitPeriodWaveform : Prop :=
  (Params.default.bitCycles = 30 ∧ Params.default.h1Cycles = 20 ∧ Params.default.h0Cycles = 10) ∧
  ∀ (s : State) (ms : List Move) (j : Nat), paramsOk s.params = true → s.params.level = .cycle → s.txState = .bits →
    s.txC = 0 → s.sched = List.replicate s.params.bitCycles .engine ++ ms → j < s.params.bitCycles →
      ∃ t, Host.Core.run Sys2Proof.core (j + 1) s = .next t ∧
        t.dout = decide (j < if frameBit s.frame s.txK then s.params.h1Cycles else s.params.h0Cycles)

/-- R133: a transmission keeps `busy` for exactly FRAME_BITS x BIT_CYCLES + RESET_CYCLES clock cycles. -/
def Obligations.TransmissionLastsExactly : Prop :=
  ∀ (s : State) (ms : List Move) (n : Nat), Coherent s → s.params.level = .cycle → s.txState = .bits → s.txK = 0 → s.txC = 0 →
    s.sched = List.replicate (24 * s.params.capacity * s.params.bitCycles + s.params.resetCycles) .engine ++ ms →
    n ≤ 24 * s.params.capacity * s.params.bitCycles + s.params.resetCycles →
      ∃ t, Host.Core.run Sys2Proof.core n s = .next t ∧
        t.busy = decide (n < 24 * s.params.capacity * s.params.bitCycles + s.params.resetCycles)

/-- R148: in the last clock cycle of the gap a command, in its sequence, still sees `busy`. The transmission completes in
every case, so a SERVICE is deferred, a TICK under HOLD stays on the port and one under SKIP has no effect, and phase and
frame are as they were. A set of `dirty` by the command, be it REFRESH, UPD, an EVT with k = 0 or the last QUAD of an
event, wins over the engine's clear; no other command sets it. One command a clock cycle is log 16, the form of a hold
log 10, and that the `Gap` symbol joins the wire trace in this cycle log 14. -/
def Obligations.CommandInTheCompletingCycle : Prop :=
  ∀ (s : State) (ms : List Move) (i : Instr) (ws : List Word),
    Coherent s → s.params.level = .cycle → s.sched = .controller :: ms → s.ctlWait = .none →
    s.txState = .gap → s.txG = s.params.resetCycles - 1 → s.port = encode i :: ws →
    (s.evt = none ∧ (∀ am b e pair, i ≠ .quad am b e pair)) ∨
      (s.evt.isSome = true ∧ ∃ am b e pair, i = .quad am b e pair) →
      ∃ t, step s = .next t ∧ t.txState = .idle ∧ t.busy = false ∧ t.wire = s.wire ++ [.gap] ∧
        t.phase = s.phase ∧ t.frame = s.frame ∧
        t.port = (if i = .tick ∧ s.params.tickBusyPolicy = .hold then s.port else ws) ∧
        t.dirty = ((s.dirty && decide (s.params.dirtyClear = .atStart)) ||
          match i with
          | .refresh => true
          | .upd _ _ _ => true
          | .evt _ k => decide (k = 0)
          | .quad _ _ _ _ => decide (s.evt.map (·.expected) = some 1)
          | .evtFail _ => false
          | .tick => false
          | .service => false
          | .freset => false)

/-! ### The whole machine -/

/-- R23, R28 to R32, R10: every step from a state that meets the invariant gives a state that meets it. -/
def Obligations.EveryStepKeepsTheInvariant : Prop :=
  ∀ s t : State, Coherent s → step s = .next t → Coherent t

/-- R37 to R43: the state after reset of an instance with legal parameters meets the invariant. -/
def Obligations.ResetMeetsTheInvariant : Prop :=
  (∀ p : Params, paramsOk p = true → Coherent (State.resetWith p)) ∧ Coherent State.reset

/-- R139, R168: no step changes a parameter, TX_STRATEGY among them. -/
def Obligations.ParametersNeverChange : Prop :=
  ∀ s t : State, step s = .next t → t.params = s.params

/-- R56, R113, R114, R135: while a transmission is in flight no step but boot reset changes the frame buffer. -/
def Obligations.FrameIsStableInFlight : Prop :=
  ∀ s t : State, s.busy = true → step s = .next t → (∀ n ms, s.sched ≠ .reset n :: ms) → t.frame = s.frame

/-- R138: but for boot reset, `dirty` is cleared only at the start of a transmission, under AT_START, or at its
completion, under AT_COMPLETE. -/
def Obligations.OnlyATransmissionClearsDirty : Prop :=
  ∀ s t : State, Coherent s → step s = .next t → (∀ n ms, s.sched ≠ .reset n :: ms) →
    s.dirty = true → t.dirty = false →
      (s.params.dirtyClear = .atStart ∧ s.txState = .idle ∧ t.txState = .bits ∧ t.txK = 0) ∨
      (s.params.dirtyClear = .atComplete ∧ s.txState = .gap ∧ t.txState = .idle)

/-- R137, R127: no transmission starts, restarts or stops while one is in flight: from BITS the engine stays in BITS, its
cursor where it is or one further, or goes to GAP after the last bit; from GAP it stays or goes idle. Boot reset aside. -/
def Obligations.NoOverlapAndNoCancellation : Prop :=
  ∀ s t : State, Coherent s → step s = .next t → (∀ n ms, s.sched ≠ .reset n :: ms) →
    (s.txState = .bits →
      (t.txState = .bits ∧ (t.txK = s.txK ∨ t.txK = s.txK + 1)) ∨
      (t.txState = .gap ∧ s.txK = 24 * s.params.capacity - 1 ∧ t.txK = s.txK)) ∧
    (s.txState = .gap → t.txK = s.txK ∧ (t.txState = .gap ∨ t.txState = .idle))

/-- R110: but for boot reset, only a TICK executed with no transmission in flight changes the phase, and it toggles it. -/
def Obligations.OnlyATickTogglesThePhase : Prop :=
  ∀ s t : State, step s = .next t → (∀ n ms, s.sched ≠ .reset n :: ms) → t.phase ≠ s.phase →
    s.busy = false ∧ t.phase = (if s.phase = .on then .off else .on) ∧
      ∃ w ws, s.port = w :: ws ∧ decode w = .instr .tick ∧ t.port = ws

/-- R21: but for boot reset, only UPD, the QUAD that completes an event, and FRESET change an LED record. -/
def Obligations.OnlyTheMapperWritesRecords : Prop :=
  ∀ s t : State, step s = .next t → (∀ n ms, s.sched ≠ .reset n :: ms) → t.led ≠ s.led →
    ∃ w ws i, s.port = w :: ws ∧ decode w = .instr i ∧ t.port = ws ∧
      (i = .freset ∨ (∃ b e pair, i = .upd b e pair) ∨
       ((∃ am b e pair, i = .quad am b e pair) ∧ s.evt.isSome = true ∧ t.evt = none))

/-! ### Environment, reset, end of a run -/

/-- R48, R49, R158: a byte the environment stores under a key is read back under that key and under no other, a key it
drops has no byte, and neither changes anything of the block. -/
def Obligations.StoreReadsBackWhatTheEnvironmentWrote : Prop :=
  ∀ (s : State) (key : CfgKey) (v : Byte) (ms : List Move), Coherent s →
    (s.sched = .setCfg key v :: ms →
      ∃ t, step s = .next t ∧ t = { s with sched := ms, store := t.store } ∧
        ∀ k, Memory.read t.store (keyNum s.params k) =
          if k = key then some v else Memory.read s.store (keyNum s.params k)) ∧
    (s.sched = .dropCfg key :: ms →
      ∃ t, step s = .next t ∧ t = { s with sched := ms, store := t.store } ∧
        ∀ k, Memory.read t.store (keyNum s.params k) =
          if k = key then none else Memory.read s.store (keyNum s.params k))

/-- R160, R161, R163: boot reset gives the block the state of R38 to R43, whatever was in flight, puts one `Gap` on the
wire, draws the frame afresh, and leaves the words on the port; an open event is gone. Boot reset as one
move is log 17. -/
def Obligations.BootResetRestoresTheResetState : Prop :=
  ∀ (s : State) (n : Nat) (ms : List Move), s.sched = .reset n :: ms →
    s.params.level = .bit ∨ s.params.resetCycles ≤ n →
      step s = .next
        { s with
          sched := ms,
          led := List.replicate s.params.capacity ⟨0, 0⟩, phase := .off, dirty := s.params.dirtyReset,
          frame := (List.range s.params.capacity).map fun p =>
            ⟨freeByte (s.draws + 3 * p), freeByte (s.draws + 3 * p + 1), freeByte (s.draws + 3 * p + 2)⟩,
          draws := s.draws + 3 * s.params.capacity,
          busy := false, txState := .idle, txK := 0, txC := 0, txG := 0, dout := false, evt := none, ctlWait := .none,
          wire := s.wire ++ [.gap] }

/-- R162: at cycle level a reset held for fewer than RESET_CYCLES cycles breaks the environment's duty, and the model
refuses the run (log 17). -/
def Obligations.ShortResetIsRefused : Prop :=
  ∀ (s : State) (n : Nat) (ms : List Move), s.sched = .reset n :: ms → s.params.level = .cycle →
    n < s.params.resetCycles → step s = .refused .resetTooShort

/-- R38 to R43: the values after power-on reset; the frame has one entry a position, its bytes free. DIRTY_RESET's
default is 0. -/
def Obligations.ResetValues : Prop :=
  Params.default.dirtyReset = false ∧
  ∀ p : Params,
    (∀ i, i < p.capacity → (State.resetWith p).led[i]? = some ⟨0, 0⟩) ∧ (State.resetWith p).led.length = p.capacity ∧
    (State.resetWith p).frame.length = p.capacity ∧
    (State.resetWith p).phase = .off ∧ (State.resetWith p).dirty = p.dirtyReset ∧ (State.resetWith p).busy = false ∧
    (State.resetWith p).txState = .idle ∧ (State.resetWith p).txK = 0 ∧ (State.resetWith p).txC = 0 ∧
    (State.resetWith p).txG = 0 ∧ (State.resetWith p).dout = false ∧ (State.resetWith p).evt = none ∧
    (State.resetWith p).ctlWait = .none ∧ (State.resetWith p).wire = [.gap]

/-- R10, R164 item 1: an instance is made exactly when its parameters meet R10's constraints (with a positive F_CLK and an
injective map of the 49 keys, R9, in the model's forms of the two maps, logs 8 and 9), and it starts in the reset state. -/
def Obligations.InstantiationChecksTheParameters : Prop :=
  ∀ (p : Params) (s : State),
    instantiate p = some s ↔
      (1 ≤ p.capacity ∧ p.capacity ≤ 65536 ∧ 1 ≤ p.h0Cycles ∧ p.h0Cycles < p.h1Cycles ∧ p.h1Cycles < p.bitCycles ∧
       1 ≤ p.resetCycles ∧ 0 < p.fClk ∧ p.orderMap.length ≤ 256 ∧ p.cfgKeyMap.length = 49 ∧ p.cfgKeyMap.Nodup) ∧
      s = State.resetWith p

/-- R144: a stuck state stays stuck: no step that answers a next state accepts a word or closes the event, for ever. The
model marks it with a fault, the block's only one (R140), exactly when no move is left and the engine is idle (log 12). -/
def Obligations.StuckExactlyWhenQuadsNeverArrive : Prop :=
  (∀ s t : State, Stuck s → step s = .next t → Stuck t ∧ t.evt = s.evt ∧ t.led = s.led) ∧
  (∀ (s : State) (r : Fault), step s = .fault r ↔ Stuck s ∧ s.sched = [] ∧ s.txState = .idle)

/-- R159: a final state stays final whatever moves are left, and but for boot reset none of them changes the block: at most
the environment's store and answers change. With no move left the step answers the same state (log 20). A stuck state
is not final. -/
def Obligations.FinalStateStandsStill : Prop :=
  (∀ s t : State, Final s → step s = .next t → Final t) ∧
  (∀ s : State, Coherent s → Final s → (∀ n ms, s.sched ≠ .reset n :: ms) →
    ∃ t, step s = .next t ∧ t = { s with sched := s.sched.tail, store := t.store, cfgFail := t.cfgFail }) ∧
  (∀ s : State, Final s → s.sched = [] → step s = .next s) ∧
  (∀ s : State, Stuck s → ¬ Final s)

/-! ### Pseudo-commands -/

/-- R82: FILL is UPD 0, 0xFFFF, and it gives every record the pair for any CAPACITY; RENDER is TICK then SERVICE. -/
def Obligations.FillSetsEveryRecord : Prop :=
  (∀ (p : Params) (pair : Byte), assembleLine p (.fill (.byte pair.toNat)) = some [.upd 0 0xFFFF pair]) ∧
  (∀ p : Params, assembleLine p .render = some [.tick, .service]) ∧
  (∀ (s : State) (pair : Byte), Coherent s → Accepting s →
    exec (.upd 0 0xFFFF pair) s = .next
      { s with
        port := s.port.tail, dirty := true,
        led := List.replicate s.params.capacity (decodePair s.params.pairLayout pair) })

/-- R81, R97: a pair written by its fields assembles to the byte that decodes to those fields, under either layout. -/
def Obligations.NamedPairAssemblesBack : Prop :=
  ∀ (p : Params) (x y : Nat), x ≤ 15 → y ≤ 15 →
    ∃ b, pairByte p (.named x y) = some b ∧ (decodePair p.pairLayout b).on.toNat = x ∧
      (decodePair p.pairLayout b).off.toNat = y
end

