-- ==== Sys2Proof/Laws/State.lean ====
section
/-! SUPPORT. One lemma per field per named update of State, true by rfl. -/

namespace Sys2Proof.Machine

@[simp] theorem accept_params (s : State) : s.accept.params = s.params := rfl
@[simp] theorem accept_led (s : State) : s.accept.led = s.led := rfl
@[simp] theorem accept_frame (s : State) : s.accept.frame = s.frame := rfl
@[simp] theorem accept_phase (s : State) : s.accept.phase = s.phase := rfl
@[simp] theorem accept_dirty (s : State) : s.accept.dirty = s.dirty := rfl
@[simp] theorem accept_busy (s : State) : s.accept.busy = s.busy := rfl
@[simp] theorem accept_txState (s : State) : s.accept.txState = s.txState := rfl
@[simp] theorem accept_txK (s : State) : s.accept.txK = s.txK := rfl
@[simp] theorem accept_txC (s : State) : s.accept.txC = s.txC := rfl
@[simp] theorem accept_txG (s : State) : s.accept.txG = s.txG := rfl
@[simp] theorem accept_dout (s : State) : s.accept.dout = s.dout := rfl
@[simp] theorem accept_evt (s : State) : s.accept.evt = s.evt := rfl
@[simp] theorem accept_ctlWait (s : State) : s.accept.ctlWait = s.ctlWait := rfl
@[simp] theorem accept_port (s : State) : s.accept.port = s.port.tail := rfl
@[simp] theorem accept_store (s : State) : s.accept.store = s.store := rfl
@[simp] theorem accept_cfgFail (s : State) : s.accept.cfgFail = s.cfgFail := rfl
@[simp] theorem accept_sched (s : State) : s.accept.sched = s.sched := rfl
@[simp] theorem accept_wire (s : State) : s.accept.wire = s.wire := rfl
@[simp] theorem accept_draws (s : State) : s.accept.draws = s.draws := rfl

@[simp] theorem setLed_params (s : State) (l : List LedRec) : (s.setLed l).params = s.params := rfl
@[simp] theorem setLed_led (s : State) (l : List LedRec) : (s.setLed l).led = l := rfl
@[simp] theorem setLed_frame (s : State) (l : List LedRec) : (s.setLed l).frame = s.frame := rfl
@[simp] theorem setLed_phase (s : State) (l : List LedRec) : (s.setLed l).phase = s.phase := rfl
@[simp] theorem setLed_dirty (s : State) (l : List LedRec) : (s.setLed l).dirty = s.dirty := rfl
@[simp] theorem setLed_busy (s : State) (l : List LedRec) : (s.setLed l).busy = s.busy := rfl
@[simp] theorem setLed_txState (s : State) (l : List LedRec) : (s.setLed l).txState = s.txState := rfl
@[simp] theorem setLed_txK (s : State) (l : List LedRec) : (s.setLed l).txK = s.txK := rfl
@[simp] theorem setLed_txC (s : State) (l : List LedRec) : (s.setLed l).txC = s.txC := rfl
@[simp] theorem setLed_txG (s : State) (l : List LedRec) : (s.setLed l).txG = s.txG := rfl
@[simp] theorem setLed_dout (s : State) (l : List LedRec) : (s.setLed l).dout = s.dout := rfl
@[simp] theorem setLed_evt (s : State) (l : List LedRec) : (s.setLed l).evt = s.evt := rfl
@[simp] theorem setLed_ctlWait (s : State) (l : List LedRec) : (s.setLed l).ctlWait = s.ctlWait := rfl
@[simp] theorem setLed_port (s : State) (l : List LedRec) : (s.setLed l).port = s.port := rfl
@[simp] theorem setLed_store (s : State) (l : List LedRec) : (s.setLed l).store = s.store := rfl
@[simp] theorem setLed_cfgFail (s : State) (l : List LedRec) : (s.setLed l).cfgFail = s.cfgFail := rfl
@[simp] theorem setLed_sched (s : State) (l : List LedRec) : (s.setLed l).sched = s.sched := rfl
@[simp] theorem setLed_wire (s : State) (l : List LedRec) : (s.setLed l).wire = s.wire := rfl
@[simp] theorem setLed_draws (s : State) (l : List LedRec) : (s.setLed l).draws = s.draws := rfl

@[simp] theorem setEvt_params (s : State) (e : Option EvtAcc) : (s.setEvt e).params = s.params := rfl
@[simp] theorem setEvt_led (s : State) (e : Option EvtAcc) : (s.setEvt e).led = s.led := rfl
@[simp] theorem setEvt_frame (s : State) (e : Option EvtAcc) : (s.setEvt e).frame = s.frame := rfl
@[simp] theorem setEvt_phase (s : State) (e : Option EvtAcc) : (s.setEvt e).phase = s.phase := rfl
@[simp] theorem setEvt_dirty (s : State) (e : Option EvtAcc) : (s.setEvt e).dirty = s.dirty := rfl
@[simp] theorem setEvt_busy (s : State) (e : Option EvtAcc) : (s.setEvt e).busy = s.busy := rfl
@[simp] theorem setEvt_txState (s : State) (e : Option EvtAcc) : (s.setEvt e).txState = s.txState := rfl
@[simp] theorem setEvt_txK (s : State) (e : Option EvtAcc) : (s.setEvt e).txK = s.txK := rfl
@[simp] theorem setEvt_txC (s : State) (e : Option EvtAcc) : (s.setEvt e).txC = s.txC := rfl
@[simp] theorem setEvt_txG (s : State) (e : Option EvtAcc) : (s.setEvt e).txG = s.txG := rfl
@[simp] theorem setEvt_dout (s : State) (e : Option EvtAcc) : (s.setEvt e).dout = s.dout := rfl
@[simp] theorem setEvt_evt (s : State) (e : Option EvtAcc) : (s.setEvt e).evt = e := rfl
@[simp] theorem setEvt_ctlWait (s : State) (e : Option EvtAcc) : (s.setEvt e).ctlWait = s.ctlWait := rfl
@[simp] theorem setEvt_port (s : State) (e : Option EvtAcc) : (s.setEvt e).port = s.port := rfl
@[simp] theorem setEvt_store (s : State) (e : Option EvtAcc) : (s.setEvt e).store = s.store := rfl
@[simp] theorem setEvt_cfgFail (s : State) (e : Option EvtAcc) : (s.setEvt e).cfgFail = s.cfgFail := rfl
@[simp] theorem setEvt_sched (s : State) (e : Option EvtAcc) : (s.setEvt e).sched = s.sched := rfl
@[simp] theorem setEvt_wire (s : State) (e : Option EvtAcc) : (s.setEvt e).wire = s.wire := rfl
@[simp] theorem setEvt_draws (s : State) (e : Option EvtAcc) : (s.setEvt e).draws = s.draws := rfl

@[simp] theorem setDirty_params (s : State) : s.setDirty.params = s.params := rfl
@[simp] theorem setDirty_led (s : State) : s.setDirty.led = s.led := rfl
@[simp] theorem setDirty_frame (s : State) : s.setDirty.frame = s.frame := rfl
@[simp] theorem setDirty_phase (s : State) : s.setDirty.phase = s.phase := rfl
@[simp] theorem setDirty_dirty (s : State) : s.setDirty.dirty = true := rfl
@[simp] theorem setDirty_busy (s : State) : s.setDirty.busy = s.busy := rfl
@[simp] theorem setDirty_txState (s : State) : s.setDirty.txState = s.txState := rfl
@[simp] theorem setDirty_txK (s : State) : s.setDirty.txK = s.txK := rfl
@[simp] theorem setDirty_txC (s : State) : s.setDirty.txC = s.txC := rfl
@[simp] theorem setDirty_txG (s : State) : s.setDirty.txG = s.txG := rfl
@[simp] theorem setDirty_dout (s : State) : s.setDirty.dout = s.dout := rfl
@[simp] theorem setDirty_evt (s : State) : s.setDirty.evt = s.evt := rfl
@[simp] theorem setDirty_ctlWait (s : State) : s.setDirty.ctlWait = s.ctlWait := rfl
@[simp] theorem setDirty_port (s : State) : s.setDirty.port = s.port := rfl
@[simp] theorem setDirty_store (s : State) : s.setDirty.store = s.store := rfl
@[simp] theorem setDirty_cfgFail (s : State) : s.setDirty.cfgFail = s.cfgFail := rfl
@[simp] theorem setDirty_sched (s : State) : s.setDirty.sched = s.sched := rfl
@[simp] theorem setDirty_wire (s : State) : s.setDirty.wire = s.wire := rfl
@[simp] theorem setDirty_draws (s : State) : s.setDirty.draws = s.draws := rfl

@[simp] theorem startTx_params (s : State) : (startTx s).params = s.params := rfl
@[simp] theorem startTx_led (s : State) : (startTx s).led = s.led := rfl
@[simp] theorem startTx_frame (s : State) : (startTx s).frame = s.frame := rfl
@[simp] theorem startTx_phase (s : State) : (startTx s).phase = s.phase := rfl
@[simp] theorem startTx_dirty (s : State) : (startTx s).dirty = dirtyAtStart s.params s.dirty := rfl
@[simp] theorem startTx_busy (s : State) : (startTx s).busy = true := rfl
@[simp] theorem startTx_txState (s : State) : (startTx s).txState = .bits := rfl
@[simp] theorem startTx_txK (s : State) : (startTx s).txK = 0 := rfl
@[simp] theorem startTx_txC (s : State) : (startTx s).txC = 0 := rfl
@[simp] theorem startTx_txG (s : State) : (startTx s).txG = s.txG := rfl
@[simp] theorem startTx_dout (s : State) : (startTx s).dout = s.dout := rfl
@[simp] theorem startTx_evt (s : State) : (startTx s).evt = s.evt := rfl
@[simp] theorem startTx_ctlWait (s : State) : (startTx s).ctlWait = waitAtStart s.params s.ctlWait := rfl
@[simp] theorem startTx_port (s : State) : (startTx s).port = s.port := rfl
@[simp] theorem startTx_store (s : State) : (startTx s).store = s.store := rfl
@[simp] theorem startTx_cfgFail (s : State) : (startTx s).cfgFail = s.cfgFail := rfl
@[simp] theorem startTx_sched (s : State) : (startTx s).sched = s.sched := rfl
@[simp] theorem startTx_wire (s : State) : (startTx s).wire = s.wire := rfl
@[simp] theorem startTx_draws (s : State) : (startTx s).draws = s.draws := rfl

@[simp] theorem emit_params (s : State) : (emit s).params = s.params := rfl
@[simp] theorem emit_led (s : State) : (emit s).led = s.led := rfl
@[simp] theorem emit_frame (s : State) : (emit s).frame = s.frame := rfl
@[simp] theorem emit_phase (s : State) : (emit s).phase = s.phase := rfl
@[simp] theorem emit_dirty (s : State) : (emit s).dirty = s.dirty := rfl
@[simp] theorem emit_busy (s : State) : (emit s).busy = s.busy := rfl
@[simp] theorem emit_txState (s : State) : (emit s).txState = if lastBit s then .gap else .bits := rfl
@[simp] theorem emit_txK (s : State) : (emit s).txK = if lastBit s then s.txK else s.txK + 1 := rfl
@[simp] theorem emit_txC (s : State) : (emit s).txC = s.txC := rfl
@[simp] theorem emit_txG (s : State) : (emit s).txG = s.txG := rfl
@[simp] theorem emit_dout (s : State) : (emit s).dout = false := rfl
@[simp] theorem emit_evt (s : State) : (emit s).evt = s.evt := rfl
@[simp] theorem emit_ctlWait (s : State) : (emit s).ctlWait = s.ctlWait := rfl
@[simp] theorem emit_port (s : State) : (emit s).port = s.port := rfl
@[simp] theorem emit_store (s : State) : (emit s).store = s.store := rfl
@[simp] theorem emit_cfgFail (s : State) : (emit s).cfgFail = s.cfgFail := rfl
@[simp] theorem emit_sched (s : State) : (emit s).sched = s.sched := rfl
@[simp] theorem emit_wire (s : State) : (emit s).wire = s.wire ++ [.bit (frameBit s.frame s.txK)] := rfl
@[simp] theorem emit_draws (s : State) : (emit s).draws = s.draws := rfl

@[simp] theorem endGap_params (s : State) : (endGap s).params = s.params := rfl
@[simp] theorem endGap_led (s : State) : (endGap s).led = s.led := rfl
@[simp] theorem endGap_frame (s : State) : (endGap s).frame = s.frame := rfl
@[simp] theorem endGap_phase (s : State) : (endGap s).phase = s.phase := rfl
@[simp] theorem endGap_dirty (s : State) : (endGap s).dirty = s.dirty := rfl
@[simp] theorem endGap_busy (s : State) : (endGap s).busy = false := rfl
@[simp] theorem endGap_txState (s : State) : (endGap s).txState = .idle := rfl
@[simp] theorem endGap_txK (s : State) : (endGap s).txK = s.txK := rfl
@[simp] theorem endGap_txC (s : State) : (endGap s).txC = s.txC := rfl
@[simp] theorem endGap_txG (s : State) : (endGap s).txG = s.txG := rfl
@[simp] theorem endGap_dout (s : State) : (endGap s).dout = s.dout := rfl
@[simp] theorem endGap_evt (s : State) : (endGap s).evt = s.evt := rfl
@[simp] theorem endGap_ctlWait (s : State) : (endGap s).ctlWait = .none := rfl
@[simp] theorem endGap_port (s : State) : (endGap s).port = s.port := rfl
@[simp] theorem endGap_store (s : State) : (endGap s).store = s.store := rfl
@[simp] theorem endGap_cfgFail (s : State) : (endGap s).cfgFail = s.cfgFail := rfl
@[simp] theorem endGap_sched (s : State) : (endGap s).sched = s.sched := rfl
@[simp] theorem endGap_wire (s : State) : (endGap s).wire = s.wire ++ [.gap] := rfl
@[simp] theorem endGap_draws (s : State) : (endGap s).draws = s.draws := rfl

@[simp] theorem complete_params (s : State) : (complete s).params = s.params := rfl
@[simp] theorem complete_led (s : State) : (complete s).led = s.led := rfl
@[simp] theorem complete_frame (s : State) : (complete s).frame = s.frame := rfl
@[simp] theorem complete_phase (s : State) : (complete s).phase = s.phase := rfl
@[simp] theorem complete_dirty (s : State) : (complete s).dirty = dirtyAtComplete s.params s.dirty := rfl
@[simp] theorem complete_busy (s : State) : (complete s).busy = false := rfl
@[simp] theorem complete_txState (s : State) : (complete s).txState = .idle := rfl
@[simp] theorem complete_txK (s : State) : (complete s).txK = s.txK := rfl
@[simp] theorem complete_txC (s : State) : (complete s).txC = s.txC := rfl
@[simp] theorem complete_txG (s : State) : (complete s).txG = s.txG := rfl
@[simp] theorem complete_dout (s : State) : (complete s).dout = false := rfl
@[simp] theorem complete_evt (s : State) : (complete s).evt = s.evt := rfl
@[simp] theorem complete_ctlWait (s : State) : (complete s).ctlWait = .none := rfl
@[simp] theorem complete_port (s : State) : (complete s).port = s.port := rfl
@[simp] theorem complete_store (s : State) : (complete s).store = s.store := rfl
@[simp] theorem complete_cfgFail (s : State) : (complete s).cfgFail = s.cfgFail := rfl
@[simp] theorem complete_sched (s : State) : (complete s).sched = s.sched := rfl
@[simp] theorem complete_wire (s : State) : (complete s).wire = s.wire ++ [.gap] := rfl
@[simp] theorem complete_draws (s : State) : (complete s).draws = s.draws := rfl

@[simp] theorem driveLine_params (s : State) : (driveLine s).params = s.params := rfl
@[simp] theorem driveLine_led (s : State) : (driveLine s).led = s.led := rfl
@[simp] theorem driveLine_frame (s : State) : (driveLine s).frame = s.frame := rfl
@[simp] theorem driveLine_phase (s : State) : (driveLine s).phase = s.phase := rfl
@[simp] theorem driveLine_dirty (s : State) : (driveLine s).dirty = s.dirty := rfl
@[simp] theorem driveLine_busy (s : State) : (driveLine s).busy = s.busy := rfl
@[simp] theorem driveLine_txState (s : State) : (driveLine s).txState = s.txState := rfl
@[simp] theorem driveLine_txK (s : State) : (driveLine s).txK = s.txK := rfl
@[simp] theorem driveLine_txC (s : State) : (driveLine s).txC = s.txC := rfl
@[simp] theorem driveLine_txG (s : State) : (driveLine s).txG = s.txG := rfl
@[simp] theorem driveLine_dout (s : State) : (driveLine s).dout = lineLevel s := rfl
@[simp] theorem driveLine_evt (s : State) : (driveLine s).evt = s.evt := rfl
@[simp] theorem driveLine_ctlWait (s : State) : (driveLine s).ctlWait = s.ctlWait := rfl
@[simp] theorem driveLine_port (s : State) : (driveLine s).port = s.port := rfl
@[simp] theorem driveLine_store (s : State) : (driveLine s).store = s.store := rfl
@[simp] theorem driveLine_cfgFail (s : State) : (driveLine s).cfgFail = s.cfgFail := rfl
@[simp] theorem driveLine_sched (s : State) : (driveLine s).sched = s.sched := rfl
@[simp] theorem driveLine_wire (s : State) : (driveLine s).wire = s.wire := rfl
@[simp] theorem driveLine_draws (s : State) : (driveLine s).draws = s.draws := rfl

end Sys2Proof.Machine
end

