-- ==== Sys2Proof/Laws/Ops.lean ====
section
/-! SUPPORT. What the shared operations do: the configuration store, the LED table, the enabledness of a command. -/

namespace Sys2Proof.Machine

/-! ### The configuration store -/

theorem Memory.read_none_of_lt {m : Memory} {k : Nat} (h : ∀ x ∈ m, k < x.1) : Memory.read m k = none := by
  induction m with
  | nil => rfl
  | cons c m ih =>
    have hc := h c List.mem_cons_self
    rw [show Memory.read (c :: m) k = if c.1 = k then some c.2 else Memory.read m k from rfl, if_neg (by omega)]
    exact ih fun x hx => h x (List.mem_cons_of_mem _ hx)

theorem Memory.read_write_same (m : Memory) (k : Nat) (v : Byte) : Memory.read (Memory.write m k v) k = some v := by
  induction m with
  | nil => simp [Memory.write, Memory.read]
  | cons c m ih =>
    obtain ⟨a, x⟩ := c
    simp only [Memory.write]
    split
    · simp [Memory.read]
    · split
      · simp [Memory.read]
      · rw [Memory.read, if_neg (by omega), ih]

theorem Memory.read_write_other (m : Memory) {k j : Nat} (v : Byte) (h : j ≠ k) :
    Memory.read (Memory.write m k v) j = Memory.read m j := by
  induction m with
  | nil => simp [Memory.write, Memory.read, h.symm]
  | cons c m ih =>
    obtain ⟨a, x⟩ := c
    simp only [Memory.write]
    split
    · simp [Memory.read, h.symm]
    · split
      · next hk => subst hk; simp [Memory.read, h.symm]
      · simp only [Memory.read, ih]

theorem Memory.mem_write {m : Memory} {k : Nat} {v : Byte} {c : Host.Cell} (h : c ∈ Memory.write m k v) :
    c = (k, v) ∨ c ∈ m := by
  induction m with
  | nil => simpa [Memory.write] using h
  | cons d m ih =>
    obtain ⟨a, x⟩ := d
    simp only [Memory.write] at h
    split at h
    · simpa using h
    · split at h
      · rcases List.mem_cons.1 h with h | h
        · exact .inl h
        · exact .inr (List.mem_cons_of_mem _ h)
      · rcases List.mem_cons.1 h with h | h
        · exact .inr (h ▸ List.mem_cons_self)
        · exact (ih h).imp_right (List.mem_cons_of_mem _)

theorem Memory.mem_erase {m : Memory} {k : Nat} {c : Host.Cell} (h : c ∈ Memory.erase m k) : c ∈ m := by
  induction m with
  | nil => exact h
  | cons d m ih =>
    obtain ⟨a, x⟩ := d
    simp only [Memory.erase] at h
    split at h
    · exact List.mem_cons_of_mem _ h
    · rcases List.mem_cons.1 h with h | h
      · exact h ▸ List.mem_cons_self
      · exact List.mem_cons_of_mem _ (ih h)

/-- A write keeps the canonical form. -/
theorem Memory.write_wf {m : Memory} (k : Nat) (v : Byte) (h : Memory.wf m) : Memory.wf (Memory.write m k v) := by
  induction m with
  | nil => simp [Memory.write]
  | cons d m ih =>
    obtain ⟨a, x⟩ := d
    obtain ⟨h1, h2⟩ := List.pairwise_cons.1 h
    simp only [Memory.write]
    split
    · next hk =>
      refine List.pairwise_cons.2 ⟨fun c hc => ?_, h⟩
      rcases List.mem_cons.1 hc with rfl | hc
      · exact hk
      · exact Nat.lt_trans hk (h1 c hc)
    · split
      · next hk => subst hk; exact List.pairwise_cons.2 ⟨h1, h2⟩
      · refine List.pairwise_cons.2 ⟨fun c hc => ?_, ih h2⟩
        rcases Memory.mem_write hc with rfl | hc
        · show a < k; omega
        · exact h1 c hc

/-- An erasure keeps the canonical form. -/
theorem Memory.erase_wf {m : Memory} (k : Nat) (h : Memory.wf m) : Memory.wf (Memory.erase m k) := by
  induction m with
  | nil => exact h
  | cons d m ih =>
    obtain ⟨a, x⟩ := d
    obtain ⟨h1, h2⟩ := List.pairwise_cons.1 h
    simp only [Memory.erase]
    split
    · exact h2
    · exact List.pairwise_cons.2 ⟨fun c hc => h1 c (Memory.mem_erase hc), ih h2⟩

/-- After an erasure of a store in canonical form the key has no byte. -/
theorem Memory.read_erase_same {m : Memory} (k : Nat) (h : Memory.wf m) : Memory.read (Memory.erase m k) k = none := by
  induction m with
  | nil => rfl
  | cons d m ih =>
    obtain ⟨a, x⟩ := d
    obtain ⟨h1, h2⟩ := List.pairwise_cons.1 h
    simp only [Memory.erase]
    split
    · next hk => subst hk; exact Memory.read_none_of_lt h1
    · next hk => rw [Memory.read, if_neg hk]; exact ih h2

theorem Memory.read_erase_other (m : Memory) {k j : Nat} (h : j ≠ k) :
    Memory.read (Memory.erase m k) j = Memory.read m j := by
  induction m with
  | nil => rfl
  | cons d m ih =>
    obtain ⟨a, x⟩ := d
    simp only [Memory.erase]
    split
    · next hk => subst hk; simp [Memory.read, h.symm]
    · simp only [Memory.read, ih]

/-! ### The LED table -/

/-- Which records a range update overwrites, and with what; every other record is as before (R99, R108). -/
theorem setRange_getElem? (lo hi : Nat) (v : LedRec) (p : Nat) (l : List LedRec) (i : Nat) :
    (setRange lo hi v p l)[i]? = (l[i]?).map fun r => if lo ≤ p + i ∧ p + i ≤ hi then v else r := by
  induction l generalizing p i with
  | nil => simp [setRange]
  | cons r l ih =>
    cases i with
    | zero => simp [setRange]
    | succ i =>
      simp only [setRange, List.getElem?_cons_succ, ih, show p + 1 + i = p + (i + 1) by omega]

@[simp] theorem setRange_length (lo hi : Nat) (v : LedRec) (p : Nat) (l : List LedRec) :
    (setRange lo hi v p l).length = l.length := by
  induction l generalizing p with
  | nil => rfl
  | cons r l ih => simp [setRange, ih]

/-- An empty range changes no record (R99). -/
theorem setRange_empty {lo hi : Nat} (v : LedRec) (p : Nat) (l : List LedRec) (h : hi < lo) :
    setRange lo hi v p l = l := by
  induction l generalizing p with
  | nil => rfl
  | cons r l ih => rw [setRange, ih, if_neg (by omega)]

/-! ### The enabledness of a command (R143) -/

theorem gate_waiting {s : State} (held : Bool) (run : State → State) (h : s.ctlWait = .tx) :
    s.gate held run = .next s := by
  simp [State.gate, h]

theorem gate_open {s : State} (held : Bool) (run : State → State) (hw : s.ctlWait = .none) (h : s.evt.isSome = true) :
    s.gate held run = .refused .eventInterrupted := by
  simp [State.gate, hw, h]

theorem gate_held {s : State} (run : State → State) (hw : s.ctlWait = .none) (h : s.evt = none) :
    s.gate true run = .next s := by
  simp [State.gate, hw, h]

theorem gate_run {s : State} (run : State → State) (hw : s.ctlWait = .none) (h : s.evt = none) :
    s.gate false run = .next (run s.accept) := by
  simp [State.gate, hw, h]

/-- All a gated command can answer. -/
theorem gate_next {s t : State} {held : Bool} {run : State → State} (h : s.gate held run = .next t) :
    t = s ∨ s.ctlWait = .none ∧ s.evt = none ∧ held = false ∧ t = run s.accept := by
  unfold State.gate at h
  split at h
  · exact .inl (by cases h; rfl)
  · split at h
    · cases h
    · split at h
      · exact .inl (by cases h; rfl)
      · next hw he hh =>
        refine .inr ⟨?_, by simpa using he, by simpa using hh, by cases h; rfl⟩
        cases hc : s.ctlWait <;> simp_all

/-- A command refuses only inside an event (R78). -/
theorem gate_refused {s : State} {held : Bool} {run : State → State} {r : Refusal} (h : s.gate held run = .refused r) :
    r = .eventInterrupted ∧ s.evt.isSome = true := by
  unfold State.gate at h
  split at h
  · cases h
  · split at h
    · next he => exact ⟨by cases h; rfl, he⟩
    · split at h <;> cases h

theorem gate_not_fault {s : State} {held : Bool} {run : State → State} {r : Fault} : s.gate held run ≠ .fault r := by
  unfold State.gate
  split
  · simp
  · split
    · simp
    · split <;> simp

end Sys2Proof.Machine
end

