-- ==== Sys2Proof/Laws/Agents.lean ====
section
/-! SUPPORT. What a step can do, said once: the inversion of `exec`, of the controller's turn and of `step`. -/

namespace Sys2Proof.Machine

@[simp] theorem clearDirtyAtGapEnd_ctlWait (s : State) : (clearDirtyAtGapEnd s).ctlWait = s.ctlWait := by
  unfold clearDirtyAtGapEnd; split <;> rfl
@[simp] theorem clearDirtyAtGapEnd_port (s : State) : (clearDirtyAtGapEnd s).port = s.port := by
  unfold clearDirtyAtGapEnd; split <;> rfl
@[simp] theorem clearDirtyAtGapEnd_evt (s : State) : (clearDirtyAtGapEnd s).evt = s.evt := by
  unfold clearDirtyAtGapEnd; split <;> rfl
@[simp] theorem clearDirtyAtGapEnd_busy (s : State) : (clearDirtyAtGapEnd s).busy = s.busy := by
  unfold clearDirtyAtGapEnd; split <;> rfl
@[simp] theorem clearDirtyAtGapEnd_params (s : State) : (clearDirtyAtGapEnd s).params = s.params := by
  unfold clearDirtyAtGapEnd; split <;> rfl

/-- All the clear of `dirty` at the end of the gap can change is `dirty`, and only to false. -/
theorem clearDirtyAtGapEnd_eq (s : State) :
    clearDirtyAtGapEnd s = { s with dirty := if gapEnds s then dirtyAtComplete s.params s.dirty else s.dirty } := by
  unfold clearDirtyAtGapEnd; split <;> rfl

/-- The effect a command has once it is accepted. -/
def effectOf (i : Instr) (t : State) : State :=
  match i with
  | .upd b e pair => updateRange t b e pair
  | .evt evop k =>
    if k.toNat = 0 then applyEvent (polarity evop) [] t else t.setEvt (some ⟨polarity evop, k.toNat, []⟩)
  | .evtFail _ => t
  | .quad am b e pair =>
    match t.evt with
    | none => t
    | some acc => receiveQuad acc ⟨am, b, e, pair⟩ t
  | .refresh => t.setDirty
  | .tick => if t.busy then t else tickPass t
  | .service => if t.dirty && !t.busy then startTx t else t
  | .freset => t.setLed (List.replicate t.led.length ⟨0, 0⟩)

/-- The command is a QUAD. -/
def isQuad : Instr → Bool
  | .quad _ _ _ _ => true
  | .upd _ _ _ => false
  | .evt _ _ => false
  | .evtFail _ => false
  | .refresh => false
  | .tick => false
  | .service => false
  | .freset => false

/-- A hold of the command's own (R143 item 3). -/
def heldOf (i : Instr) (s : State) : Bool := decide (i = .tick) && tickHeld s

/-- Every command but QUAD is its effect behind R143's checks. -/
theorem exec_eq_gate {i : Instr} (hq : isQuad i = false) (s : State) : exec i s = s.gate (heldOf i s) (effectOf i) := by
  cases i <;> first | rfl | cases hq

/-- All a command can answer as a next state: held, or accepted with its whole effect (R143). -/
theorem exec_next {i : Instr} {s t : State} (h : exec i s = .next t) :
    t = s ∨ s.ctlWait = .none ∧ s.evt.isSome = isQuad i ∧ t = effectOf i s.accept := by
  cases i with
  | quad am b e pair =>
    simp only [exec, execQuad] at h
    split at h
    · exact .inl (by cases h; rfl)
    · next hw =>
      split at h
      · cases h
      · next acc he =>
        refine .inr ⟨?_, by simp [he, isQuad], ?_⟩
        · cases hc : s.ctlWait <;> simp_all
        · cases h; simp [effectOf, he]
  | _ =>
    rw [exec_eq_gate rfl] at h
    rcases gate_next h with h | ⟨hw, he, -, rfl⟩
    · exact .inl h
    · exact .inr ⟨hw, by simp [he, isQuad], rfl⟩

/-- A command's refusals (R78). -/
theorem exec_refused {i : Instr} {s : State} {r : Refusal} (h : exec i s = .refused r) :
    (isQuad i = true ∧ s.evt = none ∧ r = .strayQuad) ∨ (isQuad i = false ∧ s.evt.isSome = true ∧ r = .eventInterrupted) := by
  cases i with
  | quad am b e pair =>
    simp only [exec, execQuad] at h
    split at h
    · cases h
    · split at h
      · next he => exact .inl ⟨rfl, he, by cases h; rfl⟩
      · cases h
  | _ =>
    rw [exec_eq_gate rfl] at h
    obtain ⟨rfl, he⟩ := gate_refused h
    exact .inr ⟨rfl, he, rfl⟩

/-- No command faults (R140). -/
theorem exec_not_fault (i : Instr) (s : State) (r : Fault) : exec i s ≠ .fault r := by
  intro h
  cases i with
  | quad am b e pair =>
    simp only [exec, execQuad] at h
    split at h
    · cases h
    · split at h <;> cases h
  | _ =>
    rw [exec_eq_gate rfl] at h
    exact gate_not_fault h

/-- A command other than QUAD, accepted (R143 item 4). -/
theorem exec_accepted {i : Instr} {s : State} (hq : isQuad i = false) (hh : heldOf i s = false) (hw : s.ctlWait = .none)
    (he : s.evt = none) : exec i s = .next (effectOf i s.accept) := by
  rw [exec_eq_gate hq, hh, gate_run _ hw he]

/-- A QUAD, accepted (R143 item 2). -/
theorem exec_quad_accepted {am : Byte} {b e : Pos} {pair : Byte} {s : State} {acc : EvtAcc} (hw : s.ctlWait = .none)
    (he : s.evt = some acc) : exec (.quad am b e pair) s = .next (receiveQuad acc ⟨am, b, e, pair⟩ s.accept) := by
  simp [exec, execQuad, hw, he]

/-- No command is accepted during the wait (R143 item 1). -/
theorem exec_waiting (i : Instr) {s : State} (hw : s.ctlWait = .tx) : exec i s = .next s := by
  cases i with
  | quad => simp [exec, execQuad, hw]
  | _ => rw [exec_eq_gate rfl, gate_waiting _ _ hw]

/-- The controller runs the command at the head of the port. -/
theorem controllerRun_head {s : State} {w : Word} {ws : List Word} {i : Instr} (hp : s.port = w :: ws)
    (hd : decode w = .instr i) : controllerRun s = exec i s := by
  unfold controllerRun
  split
  · next hw => exact (exec_waiting i hw).symm
  · rw [hp]; simp [runWord, hd]

/-- All the controller can answer as a next state: nothing done, or the command at the head of the port executed. -/
theorem controllerRun_next {s t : State} (h : controllerRun s = .next t) :
    t = s ∨ ∃ w ws i, s.port = w :: ws ∧ decode w = .instr i ∧ s.ctlWait = .none ∧ exec i s = .next t := by
  unfold controllerRun at h
  split at h
  · exact .inl (by cases h; rfl)
  · next hw =>
    split at h
    · exact .inl (by cases h; rfl)
    · next w ws hp =>
      unfold runWord at h
      split at h
      · next i hd =>
        exact .inr ⟨w, ws, i, hp, hd, by cases hc : s.ctlWait <;> simp_all, h⟩
      · cases h

theorem controllerRun_not_fault (s : State) (r : Fault) : controllerRun s ≠ .fault r := by
  unfold controllerRun
  split
  · simp
  · split
    · simp
    · unfold runWord; split
      · exact exec_not_fault _ _ _
      · simp

/-- All a refusal of the controller can be (R142). -/
theorem controllerRun_refused {s : State} {r : Refusal} (h : controllerRun s = .refused r) :
    ∃ w ws, s.port = w :: ws ∧
      ((∃ e, decode w = .illegal e ∧ r = refusalOf e) ∨ ∃ i, decode w = .instr i ∧ exec i s = .refused r) := by
  unfold controllerRun at h
  split at h
  · cases h
  · split at h
    · cases h
    · next w ws hp =>
      refine ⟨w, ws, hp, ?_⟩
      unfold runWord at h
      split at h
      · next i hd => exact .inr ⟨i, hd, h⟩
      · next e hd => exact .inl ⟨e, hd, by cases h; rfl⟩

/-- The engine's part of a clock cycle that comes before the command. -/
def openCycle (s : State) : State := clearDirtyAtGapEnd (driveLine s)

@[simp] theorem openCycle_port (s : State) : (openCycle s).port = s.port := by simp [openCycle]
@[simp] theorem openCycle_ctlWait (s : State) : (openCycle s).ctlWait = s.ctlWait := by simp [openCycle]
@[simp] theorem openCycle_evt (s : State) : (openCycle s).evt = s.evt := by simp [openCycle]
@[simp] theorem openCycle_busy (s : State) : (openCycle s).busy = s.busy := by simp [openCycle]

theorem openCycle_eq (s : State) :
    openCycle s = { s with
      dout := lineLevel s, dirty := if gapEnds s then dirtyAtComplete s.params s.dirty else s.dirty } := by
  rw [openCycle, clearDirtyAtGapEnd_eq]; rfl

@[simp] theorem openCycle_params (s : State) : (openCycle s).params = s.params := by rw [openCycle_eq]
@[simp] theorem openCycle_led (s : State) : (openCycle s).led = s.led := by rw [openCycle_eq]
@[simp] theorem openCycle_frame (s : State) : (openCycle s).frame = s.frame := by rw [openCycle_eq]
@[simp] theorem openCycle_phase (s : State) : (openCycle s).phase = s.phase := by rw [openCycle_eq]
@[simp] theorem openCycle_txState (s : State) : (openCycle s).txState = s.txState := by rw [openCycle_eq]
@[simp] theorem openCycle_txK (s : State) : (openCycle s).txK = s.txK := by rw [openCycle_eq]
@[simp] theorem openCycle_txC (s : State) : (openCycle s).txC = s.txC := by rw [openCycle_eq]
@[simp] theorem openCycle_txG (s : State) : (openCycle s).txG = s.txG := by rw [openCycle_eq]
@[simp] theorem openCycle_store (s : State) : (openCycle s).store = s.store := by rw [openCycle_eq]
@[simp] theorem openCycle_cfgFail (s : State) : (openCycle s).cfgFail = s.cfgFail := by rw [openCycle_eq]
@[simp] theorem openCycle_sched (s : State) : (openCycle s).sched = s.sched := by rw [openCycle_eq]
@[simp] theorem openCycle_wire (s : State) : (openCycle s).wire = s.wire := by rw [openCycle_eq]
@[simp] theorem openCycle_draws (s : State) : (openCycle s).draws = s.draws := by rw [openCycle_eq]

/-! What the end of a clock cycle leaves alone. -/

@[simp] theorem cycleRegs_params (s : State) : (cycleRegs s).params = s.params := by
  unfold cycleRegs; repeat' split
  all_goals rfl
@[simp] theorem cycleRegs_led (s : State) : (cycleRegs s).led = s.led := by
  unfold cycleRegs; repeat' split
  all_goals rfl
@[simp] theorem cycleRegs_frame (s : State) : (cycleRegs s).frame = s.frame := by
  unfold cycleRegs; repeat' split
  all_goals rfl
@[simp] theorem cycleRegs_phase (s : State) : (cycleRegs s).phase = s.phase := by
  unfold cycleRegs; repeat' split
  all_goals rfl
@[simp] theorem cycleRegs_dirty (s : State) : (cycleRegs s).dirty = s.dirty := by
  unfold cycleRegs; repeat' split
  all_goals rfl
@[simp] theorem cycleRegs_dout (s : State) : (cycleRegs s).dout = s.dout := by
  unfold cycleRegs; repeat' split
  all_goals rfl
@[simp] theorem cycleRegs_evt (s : State) : (cycleRegs s).evt = s.evt := by
  unfold cycleRegs; repeat' split
  all_goals rfl
@[simp] theorem cycleRegs_port (s : State) : (cycleRegs s).port = s.port := by
  unfold cycleRegs; repeat' split
  all_goals rfl
@[simp] theorem cycleRegs_store (s : State) : (cycleRegs s).store = s.store := by
  unfold cycleRegs; repeat' split
  all_goals rfl
@[simp] theorem cycleRegs_cfgFail (s : State) : (cycleRegs s).cfgFail = s.cfgFail := by
  unfold cycleRegs; repeat' split
  all_goals rfl
@[simp] theorem cycleRegs_sched (s : State) : (cycleRegs s).sched = s.sched := by
  unfold cycleRegs; repeat' split
  all_goals rfl
@[simp] theorem cycleRegs_draws (s : State) : (cycleRegs s).draws = s.draws := by
  unfold cycleRegs; repeat' split
  all_goals rfl

@[simp] theorem closeCycle_params (s t : State) : (closeCycle s t).params = t.params := by
  unfold closeCycle; split
  · rfl
  · exact cycleRegs_params t
@[simp] theorem closeCycle_led (s t : State) : (closeCycle s t).led = t.led := by
  unfold closeCycle; split
  · rfl
  · exact cycleRegs_led t
@[simp] theorem closeCycle_frame (s t : State) : (closeCycle s t).frame = t.frame := by
  unfold closeCycle; split
  · rfl
  · exact cycleRegs_frame t
@[simp] theorem closeCycle_phase (s t : State) : (closeCycle s t).phase = t.phase := by
  unfold closeCycle; split
  · rfl
  · exact cycleRegs_phase t
@[simp] theorem closeCycle_dirty (s t : State) : (closeCycle s t).dirty = t.dirty := by
  unfold closeCycle; split
  · rfl
  · exact cycleRegs_dirty t
@[simp] theorem closeCycle_dout (s t : State) : (closeCycle s t).dout = t.dout := by
  unfold closeCycle; split
  · rfl
  · exact cycleRegs_dout t
@[simp] theorem closeCycle_evt (s t : State) : (closeCycle s t).evt = t.evt := by
  unfold closeCycle; split
  · rfl
  · exact cycleRegs_evt t
@[simp] theorem closeCycle_port (s t : State) : (closeCycle s t).port = t.port := by
  unfold closeCycle; split
  · rfl
  · exact cycleRegs_port t
@[simp] theorem closeCycle_store (s t : State) : (closeCycle s t).store = t.store := by
  unfold closeCycle; split
  · rfl
  · exact cycleRegs_store t
@[simp] theorem closeCycle_cfgFail (s t : State) : (closeCycle s t).cfgFail = t.cfgFail := by
  unfold closeCycle; split
  · rfl
  · exact cycleRegs_cfgFail t
@[simp] theorem closeCycle_sched (s t : State) : (closeCycle s t).sched = t.sched := by
  unfold closeCycle; split
  · rfl
  · exact cycleRegs_sched t
@[simp] theorem closeCycle_draws (s t : State) : (closeCycle s t).draws = t.draws := by
  unfold closeCycle; split
  · rfl
  · exact cycleRegs_draws t

/-- All the controller's turn can answer as a next state, level by level. -/
theorem controllerTurn_next {s t : State} (h : controllerTurn s = .next t) :
    (s.params.level = .bit ∧ controllerRun s = .next t) ∨
    (s.params.level = .cycle ∧ ∃ u, controllerRun (openCycle s) = .next u ∧ t = closeCycle s u) := by
  unfold controllerTurn at h
  split at h
  · next hl => exact .inl ⟨hl, h⟩
  · next hl =>
    refine .inr ⟨hl, ?_⟩
    split at h
    · next u hu => exact ⟨u, hu, by cases h; rfl⟩
    · cases h
    · cases h

theorem controllerTurn_not_fault (s : State) (r : Fault) : controllerTurn s ≠ .fault r := by
  unfold controllerTurn
  split
  · exact controllerRun_not_fault _ _
  · split
    · simp
    · next hu => exact absurd hu (controllerRun_not_fault _ _)
    · simp

theorem controllerTurn_refused {s : State} {r : Refusal} (h : controllerTurn s = .refused r) :
    controllerRun s = .refused r ∨ controllerRun (openCycle s) = .refused r := by
  unfold controllerTurn at h
  split at h
  · exact .inl h
  · split at h
    · cases h
    · cases h
    · next hu => cases h; exact .inr hu

/-- The state a chosen move starts from: the move taken off the list. With no move chosen it is the state itself. -/
def State.popMove (s : State) : State := { s with sched := s.sched.tail }

@[simp] theorem popMove_params (s : State) : s.popMove.params = s.params := rfl
@[simp] theorem popMove_led (s : State) : s.popMove.led = s.led := rfl
@[simp] theorem popMove_frame (s : State) : s.popMove.frame = s.frame := rfl
@[simp] theorem popMove_phase (s : State) : s.popMove.phase = s.phase := rfl
@[simp] theorem popMove_dirty (s : State) : s.popMove.dirty = s.dirty := rfl
@[simp] theorem popMove_busy (s : State) : s.popMove.busy = s.busy := rfl
@[simp] theorem popMove_txState (s : State) : s.popMove.txState = s.txState := rfl
@[simp] theorem popMove_txK (s : State) : s.popMove.txK = s.txK := rfl
@[simp] theorem popMove_txC (s : State) : s.popMove.txC = s.txC := rfl
@[simp] theorem popMove_txG (s : State) : s.popMove.txG = s.txG := rfl
@[simp] theorem popMove_dout (s : State) : s.popMove.dout = s.dout := rfl
@[simp] theorem popMove_evt (s : State) : s.popMove.evt = s.evt := rfl
@[simp] theorem popMove_ctlWait (s : State) : s.popMove.ctlWait = s.ctlWait := rfl
@[simp] theorem popMove_port (s : State) : s.popMove.port = s.port := rfl
@[simp] theorem popMove_store (s : State) : s.popMove.store = s.store := rfl
@[simp] theorem popMove_cfgFail (s : State) : s.popMove.cfgFail = s.cfgFail := rfl
@[simp] theorem popMove_wire (s : State) : s.popMove.wire = s.wire := rfl
@[simp] theorem popMove_draws (s : State) : s.popMove.draws = s.draws := rfl

theorem popMove_of_nil {s : State} (h : s.sched = []) : s.popMove = s := by
  cases s; simp_all [State.popMove]

/-- What a step that answers a next state did. -/
inductive Did (s t : State) : Prop where
  | controller (h : controllerTurn s.popMove = .next t)
  | engine (h : t = engineTurn s.popMove)
  | present (w : Word) (h : t = { s.popMove with port := s.port ++ [w] })
  | setCfg (key : CfgKey) (v : Byte) (h : t = { s.popMove with store := Memory.write s.store (keyNum s.params key) v })
  | dropCfg (key : CfgKey) (h : t = { s.popMove with store := Memory.erase s.store (keyNum s.params key) })
  | failReads (answers : List Bool) (h : t = { s.popMove with cfgFail := answers })
  | reset (n : Nat) (ms : List Move) (hs : s.sched = .reset n :: ms) (h : t = bootReset s.popMove)
  | nothing (h : t = s)

/-- All a step can answer as a next state. -/
theorem step_next {s t : State} (h : step s = .next t) : Did s t := by
  unfold step nextStep at h
  split at h
  · next hs =>
    unfold autoStep at h
    split at h
    · exact .controller (by rw [popMove_of_nil hs]; exact h)
    · split at h
      · exact .engine (by rw [popMove_of_nil hs]; cases h; rfl)
      · split at h
        · cases h
        · exact .nothing (by cases h; rfl)
  · next m ms hs =>
    have hp : s.popMove = { s with sched := ms } := by simp [State.popMove, hs]
    rw [← hp] at h
    cases m with
    | controller => exact .controller h
    | engine => exact .engine (by cases h; rfl)
    | present w => exact .present w (by cases h; rfl)
    | setCfg key v => exact .setCfg key v (by cases h; rfl)
    | dropCfg key => exact .dropCfg key (by cases h; rfl)
    | failReads as => exact .failReads as (by cases h; rfl)
    | reset n =>
      refine .reset n ms hs ?_
      simp only [moveStep, resetTurn] at h
      split at h
      · cases h
      · cases h; rfl

/-- With no word on the port the controller's turn runs no command (R143). -/
theorem controllerRun_empty {s : State} (h : s.port = []) : controllerRun s = .next s := by
  simp [controllerRun, h]

/-- With no word on the port the controller is not ready. -/
theorem controllerReady_empty {s : State} (h : s.port = []) : controllerReady s = false := by
  unfold controllerReady
  rw [h]
  cases s.ctlWait <;> rfl

/-- A waiting controller is not ready (R143 item 1). -/
theorem controllerReady_waiting {s : State} (hw : s.ctlWait = .tx) : controllerReady s = false := by
  simp [controllerReady, hw]

/-- A TICK at the head of the port is ready unless it is held (R143 item 3). -/
theorem controllerReady_tick {s : State} {w : Word} {ws : List Word} (hw : s.ctlWait = .none) (hp : s.port = w :: ws)
    (hd : decode w = .instr .tick) : controllerReady s = (s.evt.isSome || !tickHeld s) := by
  simp only [controllerReady, hw, hp, hd]

/-- Any other word at the head of the port is ready (R143). -/
theorem controllerReady_other {s : State} {w : Word} {ws : List Word} (hw : s.ctlWait = .none) (hp : s.port = w :: ws)
    (hd : decode w ≠ .instr .tick) : controllerReady s = true := by
  unfold controllerReady
  rw [hw, hp]
  dsimp only
  split
  · next h => exact absurd h hd
  · rfl

/-- What a chosen move does. -/
theorem step_move {s : State} {m : Move} {ms : List Move} (h : s.sched = m :: ms) :
    step s = moveStep m { s with sched := ms } := by
  simp [step, nextStep, h]

/-- What the default policy does. -/
theorem step_auto {s : State} (h : s.sched = []) : step s = autoStep s := by
  simp [step, nextStep, h]

end Sys2Proof.Machine
end

