-- ==== Sys2Proof/Laws/Events.lean ====
section
/-! SUPPORT. What range updates and events do to the LED table, and that they do nothing else but set `dirty`. -/

namespace Sys2Proof.Machine

/-- A range update changes the table and `dirty` alone (R99). -/
theorem updateRange_eq (st : State) (b e : Pos) (pair : Byte) :
    updateRange st b e pair =
      { st with
        led := setRange b.toNat (clamp st.params e) (decodePair st.params.pairLayout pair) 0 st.led, dirty := true } :=
  rfl

/-- A range update, record by record (R99, R108). -/
theorem updateRange_getElem? (st : State) (b e : Pos) (pair : Byte) (i : Nat) :
    (updateRange st b e pair).led[i]? = (st.led[i]?).map fun r =>
      if b.toNat ≤ i ∧ i ≤ clamp st.params e then decodePair st.params.pairLayout pair else r := by
  rw [updateRange_eq, setRange_getElem?]
  simp

/-- A quadruple of an event writes the record at `i` (R102, R98). -/
def quadHits (p : Params) (pol : Polarity) (i : Nat) (q : Quad) : Bool :=
  amMatches pol q.am && decide (q.s.toNat ≤ i ∧ i ≤ clamp p q.e)

theorem applyQuad_eq (pol : Polarity) (st : State) (q : Quad) :
    applyQuad pol st q =
      { st with led := (applyQuad pol st q).led, dirty := st.dirty || amMatches pol q.am } := by
  unfold applyQuad
  split
  · next h => rw [updateRange_eq]; simp [h]
  · next h => simp [h]

theorem applyQuad_getElem? (pol : Polarity) (st : State) (q : Quad) (i : Nat) :
    (applyQuad pol st q).led[i]? = (st.led[i]?).map fun r =>
      if quadHits st.params pol i q then decodePair st.params.pairLayout q.pair else r := by
  unfold applyQuad quadHits
  split
  · next h => rw [updateRange_getElem?]; simp [h]
  · next h => simp [h]

/-- Quadruples change the table and `dirty` alone (R103). -/
theorem applyQuads_eq (pol : Polarity) (qs : List Quad) (st : State) :
    qs.foldl (applyQuad pol) st =
      { st with
        led := (qs.foldl (applyQuad pol) st).led,
        dirty := (qs.foldl (applyQuad pol) st).dirty } := by
  induction qs generalizing st with
  | nil => rfl
  | cons q qs ih =>
    rw [List.foldl_cons, ih, applyQuad_eq]

/-- The quadruples of an event, record by record: the last one that hits a record wins (R103, R109). -/
theorem applyQuads_getElem? (pol : Polarity) (qs : List Quad) (st : State) (i : Nat) :
    (qs.foldl (applyQuad pol) st).led[i]? = (st.led[i]?).map fun r =>
      match qs.reverse.find? (quadHits st.params pol i) with
      | some q => decodePair st.params.pairLayout q.pair
      | none => r := by
  induction qs generalizing st with
  | nil => simp
  | cons q qs ih =>
    rw [List.foldl_cons, ih, applyQuad_getElem?, Option.map_map]
    congr 1
    have hp : (applyQuad pol st q).params = st.params := by rw [applyQuad_eq]
    funext r
    simp only [Function.comp, hp, List.reverse_cons, List.find?_append]
    cases qs.reverse.find? (quadHits st.params pol i) with
    | some q' => simp
    | none => cases h : quadHits st.params pol i q <;> simp [h]

/-- An event changes the table alone and sets `dirty` (R103). -/
theorem applyEvent_eq (pol : Polarity) (qs : List Quad) (st : State) :
    applyEvent pol qs st = { st with led := (applyEvent pol qs st).led, dirty := true } := by
  unfold applyEvent
  rw [applyQuads_eq]
  rfl

theorem applyEvent_getElem? (pol : Polarity) (qs : List Quad) (st : State) (i : Nat) :
    (applyEvent pol qs st).led[i]? = (st.led[i]?).map fun r =>
      match qs.reverse.find? (quadHits st.params pol i) with
      | some q => decodePair st.params.pairLayout q.pair
      | none => r :=
  applyQuads_getElem? pol qs st i

theorem applyEvent_led_length (pol : Polarity) (qs : List Quad) (st : State) :
    (applyEvent pol qs st).led.length = st.led.length := by
  show (qs.foldl (applyQuad pol) st).led.length = _
  induction qs generalizing st with
  | nil => rfl
  | cons q qs ih =>
    rw [List.foldl_cons, ih]
    unfold applyQuad
    split
    · simp [updateRange_eq]
    · rfl

/-- Receiving a quadruple changes the accumulator, and with the last one the table and `dirty` (R75). -/
theorem receiveQuad_eq (acc : EvtAcc) (q : Quad) (t : State) :
    receiveQuad acc q t =
      { t with
        evt := (receiveQuad acc q t).evt, led := (receiveQuad acc q t).led, dirty := (receiveQuad acc q t).dirty } := by
  unfold receiveQuad
  split
  · rw [applyEvent_eq]; rfl
  · rfl

theorem receiveQuad_led_length (acc : EvtAcc) (q : Quad) (t : State) :
    (receiveQuad acc q t).led.length = t.led.length := by
  unfold receiveQuad
  split
  · rw [applyEvent_led_length]; rfl
  · rfl

end Sys2Proof.Machine
end

