-- ==== Sys2Proof/Laws/Render.lean ====
section
/-! SUPPORT. What the reads of a pass give and use up, and what TICK's pass does. -/

namespace Sys2Proof.Machine

/-- A read uses one answer and at most one draw (R49). -/
theorem cfgByte_reads (p : Params) (m : Memory) (key : CfgKey) (r : Reads) :
    (cfgByte p m key r).2.answers = r.answers.tail ∧ r.draws ≤ (cfgByte p m key r).2.draws := by
  unfold cfgByte
  split <;> simp

/-- A read of a stored byte that the environment does not fail (R49). -/
theorem cfgByte_ok {p : Params} {m : Memory} {key : CfgKey} {v : Byte} (d : Nat)
    (h : Memory.read m (keyNum p key) = some v) : cfgByte p m key ⟨[], d⟩ = (v, ⟨[], d⟩) := by
  simp [cfgByte, cfgAnswer, h]

/-- One LED uses four answers, three for the colour and one for the order (R85, R86, R111). -/
theorem render_reads (p : Params) (m : Memory) (ph : Phase) (rec : LedRec) (r : Reads) :
    (render p m ph rec r).2.answers = r.answers.drop 4 ∧ r.draws ≤ (render p m ph rec r).2.draws := by
  have h1 := cfgByte_reads p m (.colour (selectIndex ph rec) .r) r
  have h2 := cfgByte_reads p m (.colour (selectIndex ph rec) .g) (cfgByte p m (.colour (selectIndex ph rec) .r) r).2
  have h3 := cfgByte_reads p m (.colour (selectIndex ph rec) .b)
    (cfgByte p m (.colour (selectIndex ph rec) .g) (cfgByte p m (.colour (selectIndex ph rec) .r) r).2).2
  have h4 := cfgByte_reads p m .order (colour p m (selectIndex ph rec) r).2
  have hc : (colour p m (selectIndex ph rec) r).2 = (cfgByte p m (.colour (selectIndex ph rec) .b)
    (cfgByte p m (.colour (selectIndex ph rec) .g) (cfgByte p m (.colour (selectIndex ph rec) .r) r).2).2).2 := rfl
  have hr : (render p m ph rec r).2 = (cfgByte p m .order (colour p m (selectIndex ph rec) r).2).2 := rfl
  rw [← hc] at h3
  refine ⟨?_, by rw [hr]; omega⟩
  rw [hr, h4.1, h3.1, h2.1, h1.1]
  simp only [← List.drop_one, List.drop_drop]

/-- The pass writes one entry a record, and uses four answers a record, whatever they are (R91, R112). -/
theorem renderAll_reads (p : Params) (m : Memory) (ph : Phase) (recs : List LedRec) (r : Reads) :
    (renderAll p m ph recs r).1.length = recs.length ∧
    (renderAll p m ph recs r).2.answers = r.answers.drop (4 * recs.length) ∧
    r.draws ≤ (renderAll p m ph recs r).2.draws := by
  induction recs generalizing r with
  | nil => simp [renderAll]
  | cons rec recs ih =>
    obtain ⟨h1, h2, h3⟩ := ih (render p m ph rec r).2
    obtain ⟨h4, h5⟩ := render_reads p m ph rec r
    simp only [renderAll, List.length_cons]
    refine ⟨by omega, ?_, by omega⟩
    rw [h2, h4, List.drop_drop]
    congr 1; omega

@[simp] theorem renderAll_length (p : Params) (m : Memory) (ph : Phase) (recs : List LedRec) (r : Reads) :
    (renderAll p m ph recs r).1.length = recs.length := (renderAll_reads p m ph recs r).1

/-- The pass entry by entry: LED `n` is rendered from the answers number `4n` on and the draws number `d n` on, where `d`
counts the draws taken before it (R91, R93, R111, R112). -/
theorem renderAll_entries (p : Params) (m : Memory) (ph : Phase) (recs : List LedRec) (r : Reads) :
    ∃ d : Nat → Nat, d 0 = r.draws ∧ (renderAll p m ph recs r).2.draws = d recs.length ∧
      ∀ (n : Nat) (rec : LedRec), recs[n]? = some rec →
        (renderAll p m ph recs r).1[n]? = some (render p m ph rec ⟨r.answers.drop (4 * n), d n⟩).1 ∧
        d (n + 1) = (render p m ph rec ⟨r.answers.drop (4 * n), d n⟩).2.draws := by
  induction recs generalizing r with
  | nil => exact ⟨fun _ => r.draws, rfl, rfl, fun n rec h => by simp at h⟩
  | cons one recs ih =>
    obtain ⟨d, h0, hl, he⟩ := ih (render p m ph one r).2
    refine ⟨fun | 0 => r.draws | n + 1 => d n, rfl, hl, fun n rec h => ?_⟩
    cases n with
    | zero =>
      obtain rfl : one = rec := by simpa using h
      exact ⟨by simp [renderAll], h0⟩
    | succ n =>
      have := he n rec (by simpa using h)
      rwa [(render_reads p m ph one r).1, List.drop_drop, show 4 + 4 * n = 4 * (n + 1) by omega] at this

/-- With every read successful the pass is a map over the records (R111). -/
theorem renderAll_ok {p : Params} {m : Memory} {v : CfgKey → Byte} (ph : Phase) (recs : List LedRec) (d : Nat)
    (h : ∀ key, Memory.read m (keyNum p key) = some (v key)) :
    renderAll p m ph recs ⟨[], d⟩ =
      (recs.map fun r =>
        permute (orderOfByte p (v .order))
          ⟨v (.colour (selectIndex ph r) .r), v (.colour (selectIndex ph r) .g), v (.colour (selectIndex ph r) .b)⟩,
        ⟨[], d⟩) := by
  induction recs with
  | nil => rfl
  | cons rec recs ih =>
    simp only [renderAll, render, colour, channelOrder, cfgByte_ok d (h _), ih, List.map_cons]

/-- The pass depends on the key map and the store only through the bytes the 49 keys have (R48). -/
theorem renderAll_congr {p p' : Params} {m m' : Memory} (ho : ∀ v, orderOfByte p v = orderOfByte p' v)
    (h : ∀ key, Memory.read m (keyNum p key) = Memory.read m' (keyNum p' key)) (ph : Phase) (recs : List LedRec) (r : Reads) :
    renderAll p m ph recs r = renderAll p' m' ph recs r := by
  have hb : ∀ key r, cfgByte p m key r = cfgByte p' m' key r := fun key r => by
    simp only [cfgByte, cfgAnswer, h]
  induction recs generalizing r with
  | nil => rfl
  | cons rec recs ih => simp only [renderAll, render, colour, channelOrder, hb, ho, ih]

/-- All TICK's pass does (R112). -/
theorem tickPass_eq (t : State) :
    tickPass t =
      { t with
        phase := togglePhase t.phase, dirty := true,
        frame := (renderAll t.params t.store (togglePhase t.phase) t.led ⟨t.cfgFail, t.draws⟩).1,
        cfgFail := (renderAll t.params t.store (togglePhase t.phase) t.led ⟨t.cfgFail, t.draws⟩).2.answers,
        draws := (renderAll t.params t.store (togglePhase t.phase) t.led ⟨t.cfgFail, t.draws⟩).2.draws } := rfl

end Sys2Proof.Machine
end

