-- ==== Sys2Proof/Laws/Effects.lean ====
section
/-! SUPPORT. What an accepted command can do to the state, said once over all commands. -/

namespace Sys2Proof.Machine

/-- An accepted command does one of three things: it touches the records, the event accumulator and `dirty` alone, never
clearing `dirty`; it is a TICK's pass; or it starts a transmission. The last two need an idle engine (R113, R119). -/
theorem effectOf_shape (i : Instr) (t : State) :
    (∃ led evt dirty, effectOf i t = { t with led := led, evt := evt, dirty := dirty } ∧ led.length = t.led.length ∧
      (t.dirty = true → dirty = true)) ∨
    (i = .tick ∧ t.busy = false ∧ effectOf i t = tickPass t) ∨
    (i = .service ∧ t.busy = false ∧ t.dirty = true ∧ effectOf i t = startTx t) := by
  cases i with
  | upd b e pair => exact .inl ⟨_, t.evt, true, rfl, setRange_length .., fun _ => rfl⟩
  | evt evop k =>
    by_cases hk : k.toNat = 0
    · exact .inl ⟨t.led, t.evt, true, by simp [effectOf, hk]; rfl, rfl, fun _ => rfl⟩
    · exact .inl ⟨t.led, _, t.dirty, by simp only [effectOf, hk, if_false]; rfl, rfl, id⟩
  | evtFail evop => exact .inl ⟨t.led, t.evt, t.dirty, rfl, rfl, id⟩
  | quad am b e pair =>
    rcases he : t.evt with _ | acc
    · have h0 : effectOf (.quad am b e pair) t = t := by simp [effectOf, he]
      exact .inl ⟨t.led, none, t.dirty, by rw [h0, ← he], rfl, id⟩
    · refine .inl ⟨_, _, _, by simpa only [effectOf, he] using receiveQuad_eq acc ⟨am, b, e, pair⟩ t,
        receiveQuad_led_length .., ?_⟩
      intro hd
      unfold receiveQuad
      split
      · rw [applyEvent_eq]
      · exact hd
  | refresh => exact .inl ⟨t.led, t.evt, true, rfl, rfl, fun _ => rfl⟩
  | tick =>
    by_cases hb : t.busy = true
    · exact .inl ⟨t.led, t.evt, t.dirty, (by simp [effectOf, hb] : effectOf .tick t = t), rfl, id⟩
    · exact .inr (.inl ⟨rfl, by simpa using hb, by simp [effectOf, hb]⟩)
  | service =>
    by_cases hs : t.dirty = true ∧ t.busy = false
    · exact .inr (.inr ⟨rfl, hs.2, hs.1, by simp [effectOf, hs.1, hs.2]⟩)
    · exact .inl ⟨t.led, t.evt, t.dirty,
        (by cases hd : t.dirty <;> cases hb : t.busy <;> simp_all [effectOf] : effectOf .service t = t), rfl, id⟩
  | freset => exact .inl ⟨_, t.evt, t.dirty, rfl, by simp, id⟩

@[simp] theorem effectOf_params (i : Instr) (t : State) : (effectOf i t).params = t.params := by
  rcases effectOf_shape i t with ⟨_, _, _, h, -⟩ | ⟨-, -, h⟩ | ⟨-, -, -, h⟩ <;> rw [h] <;> rfl
@[simp] theorem effectOf_store (i : Instr) (t : State) : (effectOf i t).store = t.store := by
  rcases effectOf_shape i t with ⟨_, _, _, h, -⟩ | ⟨-, -, h⟩ | ⟨-, -, -, h⟩ <;> rw [h] <;> rfl
@[simp] theorem effectOf_wire (i : Instr) (t : State) : (effectOf i t).wire = t.wire := by
  rcases effectOf_shape i t with ⟨_, _, _, h, -⟩ | ⟨-, -, h⟩ | ⟨-, -, -, h⟩ <;> rw [h] <;> rfl
@[simp] theorem effectOf_port (i : Instr) (t : State) : (effectOf i t).port = t.port := by
  rcases effectOf_shape i t with ⟨_, _, _, h, -⟩ | ⟨-, -, h⟩ | ⟨-, -, -, h⟩ <;> rw [h] <;> rfl
@[simp] theorem effectOf_sched (i : Instr) (t : State) : (effectOf i t).sched = t.sched := by
  rcases effectOf_shape i t with ⟨_, _, _, h, -⟩ | ⟨-, -, h⟩ | ⟨-, -, -, h⟩ <;> rw [h] <;> rfl
@[simp] theorem effectOf_dout (i : Instr) (t : State) : (effectOf i t).dout = t.dout := by
  rcases effectOf_shape i t with ⟨_, _, _, h, -⟩ | ⟨-, -, h⟩ | ⟨-, -, -, h⟩ <;> rw [h] <;> rfl
@[simp] theorem effectOf_txG (i : Instr) (t : State) : (effectOf i t).txG = t.txG := by
  rcases effectOf_shape i t with ⟨_, _, _, h, -⟩ | ⟨-, -, h⟩ | ⟨-, -, -, h⟩ <;> rw [h] <;> rfl
@[simp] theorem effectOf_led_length (i : Instr) (t : State) : (effectOf i t).led.length = t.led.length := by
  rcases effectOf_shape i t with ⟨_, _, _, h, hl, -⟩ | ⟨-, -, h⟩ | ⟨-, -, -, h⟩ <;> rw [h]
  · exact hl
  · rfl
  · rfl

/-- With a transmission in flight a command touches the records, the event accumulator and `dirty` alone, and does not
clear `dirty` (R107, R113, R119, R137). -/
theorem effectOf_busy (i : Instr) {t : State} (hb : t.busy = true) :
    ∃ led evt dirty, effectOf i t = { t with led := led, evt := evt, dirty := dirty } ∧ led.length = t.led.length ∧
      (t.dirty = true → dirty = true) := by
  rcases effectOf_shape i t with h | ⟨-, h, -⟩ | ⟨-, h, -⟩
  · exact h
  · rw [hb] at h; cases h
  · rw [hb] at h; cases h

/-- With a transmission in flight the command sets `dirty` (R25, R75, R99, R103, R120). -/
def setsDirty (i : Instr) (t : State) : Bool :=
  match i with
  | .refresh => true
  | .upd _ _ _ => true
  | .evt _ k => decide (k.toNat = 0)
  | .quad _ _ _ _ => (t.evt.map fun acc => decide (acc.expected ≤ 1)).getD false
  | .evtFail _ => false
  | .tick => false
  | .service => false
  | .freset => false

/-- What a command does to `dirty` with a transmission in flight. -/
theorem effectOf_dirty (i : Instr) {t : State} (hb : t.busy = true) : (effectOf i t).dirty = (t.dirty || setsDirty i t) := by
  cases i with
  | evt evop k =>
    by_cases hk : k.toNat = 0
    · simp [effectOf, setsDirty, hk, applyEvent]
    · simp [effectOf, setsDirty, hk]
  | quad am b e pair =>
    rcases he : t.evt with _ | acc
    · simp [effectOf, setsDirty, he]
    · by_cases hx : acc.expected ≤ 1
      · simp [effectOf, setsDirty, he, receiveQuad, hx, applyEvent]
      · simp [effectOf, setsDirty, he, receiveQuad, hx]
  | upd b e pair => simp [effectOf, setsDirty, updateRange]
  | evtFail evop => simp [effectOf, setsDirty]
  | refresh => simp [effectOf, setsDirty]
  | tick => simp [effectOf, setsDirty, hb]
  | service => simp [effectOf, setsDirty, hb]
  | freset => simp [effectOf, setsDirty]

/-- The commands that can change a record (R21). -/
theorem effectOf_led {i : Instr} {t : State} (h : (effectOf i t).led ≠ t.led) :
    i = .freset ∨ (∃ b e pair, i = .upd b e pair) ∨
      ((∃ am b e pair, i = .quad am b e pair) ∧ t.evt.isSome = true ∧ (effectOf i t).evt = none) := by
  cases i with
  | upd b e pair => exact .inr (.inl ⟨b, e, pair, rfl⟩)
  | freset => exact .inl rfl
  | quad am b e pair =>
    refine .inr (.inr ⟨⟨am, b, e, pair, rfl⟩, ?_⟩)
    cases he : t.evt with
    | none => simp [effectOf, he] at h
    | some acc =>
      refine ⟨rfl, ?_⟩
      simp only [effectOf, he, receiveQuad] at h ⊢
      split
      · rw [applyEvent_eq]; rfl
      · next hn => rw [if_neg hn] at h; exact absurd rfl h
  | evt evop k =>
    simp only [effectOf] at h
    split at h <;> exact absurd rfl h
  | evtFail evop => exact absurd rfl h
  | refresh => exact absurd rfl h
  | tick =>
    simp only [effectOf] at h
    split at h <;> exact absurd rfl h
  | service =>
    simp only [effectOf] at h
    split at h <;> exact absurd rfl h

/-- An open event expects at least one quadruple and at most `MAX_QUADS` in all (R31, R9, R101). -/
theorem effectOf_evt (i : Instr) {t : State}
    (h : ∀ a, t.evt = some a → 1 ≤ a.expected ∧ a.expected + a.quads.length ≤ maxQuads) :
    ∀ a, (effectOf i t).evt = some a → 1 ≤ a.expected ∧ a.expected + a.quads.length ≤ maxQuads := by
  intro a ha
  cases i with
  | evt evop k =>
    simp only [effectOf] at ha
    split at ha
    · exact h a ha
    · next hk => cases ha; have := k.isLt; simp only [maxQuads, List.length_nil]; omega
  | quad am b e pair =>
    cases he : t.evt with
    | none => simp [effectOf, he] at ha
    | some acc =>
      obtain ⟨h1, h2⟩ := h acc he
      simp only [effectOf, he, receiveQuad] at ha
      split at ha
      · rw [applyEvent_eq] at ha; cases ha
      · cases ha; simp only [List.length_append, List.length_singleton] at *; omega
  | tick =>
    simp only [effectOf] at ha
    split at ha <;> exact h a ha
  | service =>
    simp only [effectOf] at ha
    split at ha <;> exact h a ha
  | upd => exact h a ha
  | evtFail => exact h a ha
  | refresh => exact h a ha
  | freset => exact h a ha

/-- A command never opens an event while it starts a transmission, and never leaves the controller waiting otherwise. -/
theorem effectOf_ctlWait (i : Instr) {t : State} (hw : t.ctlWait = .none) :
    (effectOf i t).ctlWait = .tx ↔
      (i = .service ∧ t.busy = false ∧ t.dirty = true ∧ t.params.txStrategy = .blocking) := by
  rcases effectOf_shape i t with ⟨_, _, _, h, -⟩ | ⟨hi, -, h⟩ | ⟨hi, hb, hd, h⟩
  · constructor
    · intro hc; rw [h] at hc; exact absurd (hw.symm.trans hc) (by simp)
    · rintro ⟨rfl, hb, hd, hs⟩
      simp [effectOf, hb, hd, startTx, waitAtStart, hs]
  · rw [h]
    constructor
    · intro hc; exact absurd (hw.symm.trans hc) (by simp)
    · rintro ⟨rfl, -⟩; cases hi
  · rw [h]
    simp only [startTx, waitAtStart, hi, hb, hd, true_and]
    cases t.params.txStrategy <;> simp [hw]

end Sys2Proof.Machine
end

