-- ==== Sys2Proof/Laws/Encoding.lean ====
section
/-! SUPPORT. The fields of a word and the word of its fields; what the decoder answers on fields; the table's masks on fields. -/

namespace Sys2Proof

/-- The fields of the word of some fields are those fields. -/
@[simp] theorem Fields.ofWord_toWord (f : Fields) : Fields.ofWord f.toWord = f := by
  obtain ⟨op, flg, a, s, e, k, p⟩ := f
  simp only [Fields.ofWord, Fields.toWord, Fields.mk.injEq]
  refine ⟨?_, ?_, ?_, ?_, ?_, ?_, ?_⟩ <;>
  · refine BitVec.eq_of_getLsbD_eq fun i hi => ?_
    simp only [BitVec.getLsbD_extractLsb', BitVec.getLsbD_append, hi, decide_true, Bool.true_and]
    repeat' split
    all_goals first | (exfalso; omega) | (congr 1; omega)

/-- The word of the fields of a word is that word. -/
@[simp] theorem Fields.toWord_ofWord (w : Word) : (Fields.ofWord w).toWord = w := by
  refine BitVec.eq_of_getLsbD_eq fun i hi => ?_
  simp only [Fields.ofWord, Fields.toWord, BitVec.getLsbD_extractLsb', BitVec.getLsbD_append]
  repeat' split
  all_goals (rw [decide_eq_true (by omega), Bool.true_and]; congr 1; omega)

/-- The fields of a command decode to it. -/
theorem Fields.decode_fields (i : Instr) : i.fields.decode = .instr i := by
  cases i <;> simp [Instr.fields, Fields.decode]

/-- Fields that decode to a command are the command's. -/
theorem Fields.fields_of_decode {f : Fields} {i : Instr} (h : f.decode = .instr i) : i.fields = f := by
  obtain ⟨op, flg, a, s, e, k, p⟩ := f
  simp only [Fields.decode] at h
  split at h
  · split at h <;> simp_all [Instr.fields]
    subst h; simp
  · split at h
    · split at h
      · simp_all; subst h; simp [Instr.fields]
      · split at h
        · simp_all; subst h; simp [Instr.fields]
        · cases h
    · split at h
      · split at h <;> simp_all
        subst h; simp [Instr.fields]
      · split at h
        · next ho =>
          split at h
          · next hz =>
            obtain ⟨rfl, rfl, rfl, rfl, rfl, rfl⟩ := hz
            rcases ho with rfl | rfl | rfl | rfl <;> simp at h <;> subst h <;> rfl
          · cases h
        · cases h

/-- Masking words masks their fields. -/
theorem Fields.ofWord_and (v w : Word) :
    Fields.ofWord (v &&& w) =
      ⟨(Fields.ofWord v).op &&& (Fields.ofWord w).op, (Fields.ofWord v).flg &&& (Fields.ofWord w).flg,
        (Fields.ofWord v).a &&& (Fields.ofWord w).a, (Fields.ofWord v).s &&& (Fields.ofWord w).s,
        (Fields.ofWord v).e &&& (Fields.ofWord w).e, (Fields.ofWord v).k &&& (Fields.ofWord w).k,
        (Fields.ofWord v).p &&& (Fields.ofWord w).p⟩ := by
  simp [Fields.ofWord, BitVec.extractLsb'_and]

/-- A word is known by its fields. -/
theorem Fields.ofWord_inj {v w : Word} : v = w ↔ Fields.ofWord v = Fields.ofWord w :=
  ⟨fun h => h ▸ rfl, fun h => by rw [← Fields.toWord_ofWord v, h, Fields.toWord_ofWord]⟩

/-- What a row of the table asks of the fields of a word (R69 to R73). -/
theorem OpRow.hit_iff (r : OpRow) (w : Word) :
    r.hit w = true ↔ Fields.ofWord (w &&& r.mask) = Fields.ofWord r.pattern := by
  simp only [OpRow.hit, decide_eq_true_eq]
  exact Fields.ofWord_inj

theorem and_ones4 (x : BitVec 4) : x &&& 15#4 = x := BitVec.and_allOnes
theorem and_ones8 (x : BitVec 8) : x &&& 255#8 = x := BitVec.and_allOnes
theorem and_ones16 (x : BitVec 16) : x &&& 65535#16 = x := BitVec.and_allOnes

/-- What each row of the table asks of the fields of a word (R69 to R73). -/
def tableRows (f : Fields) : List (String × Bool) :=
  [ ("UPD", f.op = 1 ∧ f.flg = 0 ∧ f.a = 0 ∧ f.k = 0),
    ("EVT", f.op = 2 ∧ f.flg = 0 ∧ f.s = 0 ∧ f.e = 0 ∧ f.p = 0),
    ("EVT.FAIL", f.op = 2 ∧ f.flg = 1 ∧ f.s = 0 ∧ f.e = 0 ∧ f.k = 0 ∧ f.p = 0),
    ("QUAD", f.op = 3 ∧ f.flg = 0 ∧ f.k = 0),
    ("REFRESH", f.op = 4 ∧ f.flg = 0 ∧ f.a = 0 ∧ f.s = 0 ∧ f.e = 0 ∧ f.k = 0 ∧ f.p = 0),
    ("TICK", f.op = 5 ∧ f.flg = 0 ∧ f.a = 0 ∧ f.s = 0 ∧ f.e = 0 ∧ f.k = 0 ∧ f.p = 0),
    ("SERVICE", f.op = 6 ∧ f.flg = 0 ∧ f.a = 0 ∧ f.s = 0 ∧ f.e = 0 ∧ f.k = 0 ∧ f.p = 0),
    ("FRESET", f.op = 7 ∧ f.flg = 0 ∧ f.a = 0 ∧ f.s = 0 ∧ f.e = 0 ∧ f.k = 0 ∧ f.p = 0) ]

/-- The masks and matches of the table say exactly that. -/
theorem opRows_hits (w : Word) : opRows.map (fun r => (r.mnemonic, r.hit w)) = tableRows (Fields.ofWord w) := by
  simp only [opRows, List.map_cons, List.map_nil, tableRows, List.cons.injEq, Prod.mk.injEq, true_and, and_true]
  refine ⟨?_, ?_, ?_, ?_, ?_, ?_, ?_, ?_⟩ <;>
  · rw [Bool.eq_iff_iff, OpRow.hit_iff, Fields.ofWord_and]
    generalize Fields.ofWord w = f
    simp [Fields.ofWord, Fields.mk.injEq, and_ones4, and_ones8, and_ones16]

/-- A row hit, by its mnemonic, is a row of `tableRows` that holds. -/
theorem exists_hit_iff (w : Word) (P : String → Prop) :
    (∃ r ∈ opRows, r.hit w = true ∧ P r.mnemonic) ↔ ∃ x ∈ tableRows (Fields.ofWord w), x.2 = true ∧ P x.1 := by
  rw [← opRows_hits]
  simp

/-- The `OP` field of a word. -/
theorem Fields.ofWord_op (w : Word) : (Fields.ofWord w).op = w.extractLsb' 60 4 := rfl

/-- Fields that decode to a command meet the command's row. -/
theorem tableRows_of_decode {f : Fields} {i : Instr} (h : f.decode = .instr i) :
    ∃ x ∈ tableRows f, x.2 = true ∧ x.1 = i.mnemonic := by
  obtain rfl := Fields.fields_of_decode h
  cases i <;> simp [tableRows, Instr.fields, Instr.mnemonic]

/-- Fields that meet a row decode. -/
theorem decode_of_tableRows {f : Fields} (h : ∃ x ∈ tableRows f, x.2 = true) : ∃ i, f.decode = .instr i := by
  obtain ⟨op, flg, a, s, e, k, p⟩ := f
  simp only [tableRows, List.mem_cons, List.not_mem_nil, or_false, exists_eq_or_imp, exists_eq_left,
    decide_eq_true_eq] at h
  rcases h with h | h | h | h | h | h | h | h <;>
  · obtain ⟨rfl, rfl, h⟩ := h
    simp_all [Fields.decode]

/-- A row that the fields of a command meet is the command's row. -/
theorem tableRows_unique {f : Fields} {i : Instr} (h : f.decode = .instr i) {x : String × Bool} (hx : x ∈ tableRows f)
    (h2 : x.2 = true) : x.1 = i.mnemonic := by
  obtain rfl := Fields.fields_of_decode h
  simp only [tableRows, List.mem_cons, List.not_mem_nil, or_false] at hx
  rcases hx with rfl | rfl | rfl | rfl | rfl | rfl | rfl | rfl <;> cases i <;>
    simp_all [Instr.fields, Instr.mnemonic]

/-- Fields with a reserved `OP` (R76). -/
theorem Fields.decode_reserved {f : Fields} (h : f.op = 0 ∨ 8 ≤ f.op.toNat) :
    f.decode = .illegal (.reservedOpcode f.op) := by
  have key : ∀ x : BitVec 4, x = 0 ∨ 8 ≤ x.toNat →
      x ≠ 1 ∧ x ≠ 2 ∧ x ≠ 3 ∧ x ≠ 4 ∧ x ≠ 5 ∧ x ≠ 6 ∧ x ≠ 7 := by decide
  obtain ⟨h1, h2, h3, h4, h5, h6, h7⟩ := key _ h
  rw [Fields.decode, if_neg h1, if_neg h2, if_neg h3, if_neg (by simp only [not_or]; exact ⟨h4, h5, h6, h7⟩)]

/-- Illegal fields with a legal `OP` (R77). -/
theorem Fields.decode_nonzero {f : Fields} {e : DecodeError} (h : f.decode = .illegal e) (h1 : 1 ≤ f.op.toNat)
    (h7 : f.op.toNat ≤ 7) : e = .nonzeroField f.op := by
  have key : ∀ x : BitVec 4, 1 ≤ x.toNat → x.toNat ≤ 7 →
      x = 1 ∨ x = 2 ∨ x = 3 ∨ x = 4 ∨ x = 5 ∨ x = 6 ∨ x = 7 := by decide
  rcases key _ h1 h7 with ho | ho | ho | ho | ho | ho | ho <;> rw [ho] <;> simp [Fields.decode, ho] at h <;>
    (try split at h) <;> simp_all
  split at h <;> simp_all

end Sys2Proof
end

