-- ==== Sys2Proof/Laws/Engine.lean ====
section
/-! SUPPORT. The transfer engine step by step, at both levels, and runs of engine steps. -/

namespace Sys2Proof.Machine

/-- An engine step does not look at the moves to come. -/
theorem engineTurn_sched (s : State) (ms : List Move) :
    engineTurn { s with sched := ms } = { engineTurn s with sched := ms } := by
  obtain ⟨params, led, frame, phase, dirty, busy, txState, txK, txC, txG, dout, evt, ctlWait, port, store, cfgFail,
    sched, wire, draws⟩ := s
  cases hl : params.level <;> cases txState <;>
    simp only [engineTurn, hl, engineBit, engineCycle, cycleRegs, clearDirtyAtGapEnd, gapEnds, driveLine, lineLevel, emit,
      complete, endGap, lastBit, reduceCtorEq, decide_false, decide_true, Bool.false_and, Bool.true_and,
      Bool.false_eq_true, if_false]
  · rfl
  · by_cases h : txC = params.bitCycles - 1 <;> by_cases h' : txK = params.frameBits - 1 <;> simp [h, h']
  · by_cases h : txG = params.resetCycles - 1 <;> simp [h]

@[simp] theorem engineTurn_params (s : State) : (engineTurn s).params = s.params := by
  unfold engineTurn engineBit engineCycle cycleRegs
  repeat' split
  all_goals first | rfl | simp

/-- A run goes on from the state its first step answers. -/
theorem run_succ {n : Nat} {s t : State} (h : step s = .next t) :
    Host.Core.run Sys2Proof.core (n + 1) s = Host.Core.run Sys2Proof.core n t := by
  have h' : Sys2Proof.core.step s = .next t := h
  simp only [Host.Core.run]
  rw [h']

/-- A run of one step. -/
theorem run_one {s t : State} (h : step s = .next t) : Host.Core.run Sys2Proof.core 1 s = .next t := run_succ h

/-- A run of chosen engine moves is that many engine steps (R156). -/
theorem run_engine (n : Nat) (s : State) (ms : List Move) (h : s.sched = List.replicate n .engine ++ ms) :
    Host.Core.run Sys2Proof.core n s = .next { engineTurn^[n] s with sched := ms } := by
  induction n generalizing s with
  | zero =>
    have : s.sched = ms := by simpa using h
    subst this; rfl
  | succ n ih =>
    have hs : step s = .next (engineTurn { s with sched := List.replicate n .engine ++ ms }) :=
      step_move (by simpa [List.replicate_succ] using h)
    rw [run_succ hs, ih _ (by rw [engineTurn_sched]), Function.iterate_succ_apply, engineTurn_sched]
    congr 2
    have : ∀ (k : Nat) (u : State) (x : List Move), engineTurn^[k] { u with sched := x } = { engineTurn^[k] u with sched := x } := by
      intro k
      induction k with
      | zero => intro u x; rfl
      | succ k ihk => intro u x; rw [Function.iterate_succ_apply, engineTurn_sched, ihk, Function.iterate_succ_apply]
    rw [this]

/-- A run of `m + n` steps whose first `m` answer a next state. -/
theorem run_add {m n : Nat} {s t : State} (h : Host.Core.run Sys2Proof.core m s = .next t) :
    Host.Core.run Sys2Proof.core (m + n) s = Host.Core.run Sys2Proof.core n t := by
  induction m generalizing s with
  | zero => rw [Nat.zero_add]; cases h; rfl
  | succ m ih =>
    rw [Nat.succ_add]
    simp only [Host.Core.run] at h ⊢
    revert h
    cases Sys2Proof.core.step s with
    | next u => exact fun h => ih h
    | fault r => intro h; cases h
    | refused r => intro h; cases h

/-! ### Bit level -/

theorem engineTurn_bits {s : State} (hl : s.params.level = .bit) (ht : s.txState = .bits) : engineTurn s = emit s := by
  simp [engineTurn, hl, engineBit, ht]

theorem engineTurn_gap {s : State} (hl : s.params.level = .bit) (ht : s.txState = .gap) : engineTurn s = complete s := by
  simp [engineTurn, hl, engineBit, ht]

/-- `n` EMIT steps that stop short of the last bit, or on it: the bits sent, the cursor moved on (R122). -/
theorem emit_iterate {s : State} (hl : s.params.level = .bit) (ht : s.txState = .bits) (n : Nat)
    (hn : s.txK + n < s.params.frameBits) :
    engineTurn^[n] s =
      { s with
        wire := s.wire ++ (List.range n).map (fun j => .bit (frameBit s.frame (s.txK + j))),
        dout := if n = 0 then s.dout else false, txK := s.txK + n } := by
  induction n with
  | zero => simp
  | succ n ih =>
    rw [Function.iterate_succ_apply', ih (by omega), engineTurn_bits] <;> try assumption
    have hb : ¬ s.txK + n = s.params.frameBits - 1 := by omega
    simp [emit, lastBit, hb, ht, List.range_succ, Nat.add_assoc]

/-- The EMIT steps that are left of a transmission, and its COMPLETE (R122, R123, R126). -/
theorem transmit_iterate {s : State} (hl : s.params.level = .bit) (ht : s.txState = .bits)
    (hk : s.txK < s.params.frameBits) :
    engineTurn^[s.params.frameBits - s.txK + 1] s =
      { s with
        wire := s.wire ++ (List.range (s.params.frameBits - s.txK)).map (fun j => .bit (frameBit s.frame (s.txK + j)))
          ++ [.gap],
        dout := false, txState := .idle, txK := s.params.frameBits - 1, busy := false,
        dirty := dirtyAtComplete s.params s.dirty, ctlWait := .none } := by
  obtain ⟨n, hn⟩ : ∃ n, s.params.frameBits - s.txK = n + 1 := ⟨s.params.frameBits - s.txK - 1, by omega⟩
  have hb : s.txK + n = s.params.frameBits - 1 := by omega
  rw [hn, Function.iterate_succ_apply', Function.iterate_succ_apply']
  have hu := emit_iterate hl ht n (by omega)
  generalize engineTurn^[n] s = u at hu
  have h1 : engineTurn u = emit u := engineTurn_bits (by rw [hu]; exact hl) (by rw [hu]; exact ht)
  have h2 : engineTurn (emit u) = complete (emit u) :=
    engineTurn_gap (by rw [hu]; exact hl) (by rw [hu]; simp [lastBit, hb])
  rw [h1, h2, hu]
  simp [complete, endGap, emit, lastBit, List.range_succ, hb]

/-! ### Cycle level -/

theorem engineTurn_cycle {s : State} (hl : s.params.level = .cycle) : engineTurn s = engineCycle s := by
  simp [engineTurn, hl]

/-- A clock cycle inside a bit period (R132). -/
theorem engineCycle_inside {s : State} (ht : s.txState = .bits) (hc : s.txC ≠ s.params.bitCycles - 1) :
    engineCycle s =
      { s with
        dout := decide (s.txC < highCycles s.params (frameBit s.frame s.txK)), txC := s.txC + 1 } := by
  simp [engineCycle, cycleRegs, clearDirtyAtGapEnd, gapEnds, driveLine, lineLevel, ht, hc]

/-- The last clock cycle of a bit period (R132). -/
theorem engineCycle_last {s : State} (ht : s.txState = .bits) (hc : s.txC = s.params.bitCycles - 1)
    (hh : highCycles s.params (frameBit s.frame s.txK) ≤ s.params.bitCycles - 1) :
    engineCycle s =
      { emit s with txC := 0, txG := if lastBit s then 0 else s.txG } := by
  obtain ⟨params, led, frame, phase, dirty, busy, txState, txK, txC, txG, dout, evt, ctlWait, port, store, cfgFail,
    sched, wire, draws⟩ := s
  dsimp only at ht hc hh
  subst ht hc
  by_cases h : txK = params.frameBits - 1
  · subst h
    simp [engineCycle, driveLine, lineLevel, clearDirtyAtGapEnd, gapEnds, cycleRegs, emit, lastBit, hh]
  · simp [engineCycle, driveLine, lineLevel, clearDirtyAtGapEnd, gapEnds, cycleRegs, emit, lastBit, h, hh]

/-- A clock cycle inside the gap (R132). -/
theorem engineCycle_gap {s : State} (ht : s.txState = .gap) (hg : s.txG ≠ s.params.resetCycles - 1) :
    engineCycle s = { s with dout := false, txG := s.txG + 1 } := by
  simp [engineCycle, cycleRegs, clearDirtyAtGapEnd, gapEnds, driveLine, lineLevel, ht, hg]

/-- The last clock cycle of the gap (R132). -/
theorem engineCycle_end {s : State} (ht : s.txState = .gap) (hg : s.txG = s.params.resetCycles - 1) :
    engineCycle s = complete s := by
  simp [engineCycle, cycleRegs, clearDirtyAtGapEnd, gapEnds, driveLine, lineLevel, ht, hg, complete, endGap]

/-- `n` clock cycles from the start of a bit period that stop inside it (R132). -/
theorem bitPeriod_inside {s : State} (hl : s.params.level = .cycle) (ht : s.txState = .bits) (hc : s.txC = 0) (n : Nat)
    (hn : n + 1 < s.params.bitCycles) :
    engineTurn^[n + 1] s =
      { s with dout := decide (n < highCycles s.params (frameBit s.frame s.txK)), txC := n + 1 } := by
  induction n with
  | zero =>
    rw [Function.iterate_succ_apply', Function.iterate_zero, id, engineTurn_cycle hl, engineCycle_inside ht (by omega)]
    simp [hc]
  | succ n ih =>
    rw [Function.iterate_succ_apply', ih (by omega), engineTurn_cycle, engineCycle_inside] <;> try assumption
    show n + 1 ≠ s.params.bitCycles - 1
    omega

/-- The high time of either bit value is shorter than the bit period (R10). -/
theorem highCycles_lt {p : Params} (h : paramsOk p = true) (b : Bool) :
    0 < highCycles p b ∧ highCycles p b ≤ p.bitCycles - 1 ∧ 2 ≤ p.bitCycles := by
  simp only [paramsOk, decide_eq_true_eq] at h
  unfold highCycles
  split <;> omega

/-- A whole bit period is one EMIT (R132). -/
theorem bitPeriod_iterate {s : State} (hp : paramsOk s.params = true) (hl : s.params.level = .cycle)
    (ht : s.txState = .bits) (hc : s.txC = 0) :
    engineTurn^[s.params.bitCycles] s = { emit s with txG := if lastBit s then 0 else s.txG } := by
  obtain ⟨h0, h1, h2⟩ := highCycles_lt hp (frameBit s.frame s.txK)
  obtain ⟨n, hn⟩ : ∃ n, s.params.bitCycles = n + 2 := ⟨s.params.bitCycles - 2, by omega⟩
  rw [hn, Function.iterate_succ_apply', bitPeriod_inside hl ht hc n (by omega), engineTurn_cycle, engineCycle_last] <;> try assumption
  · simp [emit, lastBit, ← hc]
  · show n + 1 = s.params.bitCycles - 1; omega

/-- `n` clock cycles from the start of the gap that stop inside it (R132). -/
theorem gap_inside {s : State} (hl : s.params.level = .cycle) (ht : s.txState = .gap) (hg : s.txG = 0) (n : Nat)
    (hn : n < s.params.resetCycles) :
    engineTurn^[n] s = { s with dout := if n = 0 then s.dout else false, txG := n } := by
  induction n with
  | zero => cases s; simp_all
  | succ n ih =>
    rw [Function.iterate_succ_apply', ih (by omega), engineTurn_cycle, engineCycle_gap] <;> try assumption
    · simp
    · show n ≠ s.params.resetCycles - 1; omega

/-- A whole gap is one COMPLETE (R132). -/
theorem gap_iterate {s : State} (hp : 1 ≤ s.params.resetCycles) (hl : s.params.level = .cycle) (ht : s.txState = .gap)
    (hg : s.txG = 0) :
    engineTurn^[s.params.resetCycles] s = { complete s with txG := s.params.resetCycles - 1 } := by
  obtain ⟨n, hn⟩ : ∃ n, s.params.resetCycles = n + 1 := ⟨s.params.resetCycles - 1, by omega⟩
  rw [hn, Function.iterate_succ_apply', gap_inside hl ht hg n (by omega), engineTurn_cycle, engineCycle_end] <;> try assumption
  · simp [complete, endGap]
  · show n = s.params.resetCycles - 1; omega

end Sys2Proof.Machine
end

