-- ==== Sys2Proof/Laws/Invariant.lean ====
section
/-! SUPPORT. The invariant, agent by agent: each thing a step is made of keeps it. -/

namespace Sys2Proof.Machine

/-- The bounds on the parameters that the engine's counters need (R10). -/
theorem paramsOk_bounds {p : Params} (h : paramsOk p = true) :
    1 ≤ p.capacity ∧ p.h0Cycles < p.h1Cycles ∧ p.h1Cycles < p.bitCycles ∧ 1 ≤ p.resetCycles := by
  simp only [paramsOk, decide_eq_true_eq] at h
  omega

/-- Legal parameters give the 49 keys distinct numbers (R9, R48). -/
theorem keyNum_injective {p : Params} (h : paramsOk p = true) {k j : CfgKey} (hk : keyNum p k = keyNum p j) : k = j := by
  simp only [paramsOk, decide_eq_true_eq] at h
  obtain ⟨-, -, -, -, -, -, -, -, hl, hn⟩ := h
  have hlt : ∀ k : CfgKey, keyIndex k < p.cfgKeyMap.length := by
    intro k
    rw [hl]
    cases k with
    | order => decide
    | colour i c => have := i.isLt; cases c <;> simp only [keyIndex, channelIndex] <;> omega
  have hinj : ∀ k j : CfgKey, keyIndex k = keyIndex j → k = j := by
    intro k j h
    cases k with
    | order =>
      cases j with
      | order => rfl
      | colour i c => have := i.isLt; cases c <;> simp only [keyIndex, channelIndex] at h <;> omega
    | colour i c =>
      cases j with
      | order => have := i.isLt; cases c <;> simp only [keyIndex, channelIndex] at h <;> omega
      | colour i' c' =>
        have e : i.toNat = i'.toNat ∧ c = c' := by
          cases c <;> cases c' <;> simp only [keyIndex, channelIndex] at h <;> first | exact ⟨by omega, rfl⟩ | omega
        rw [BitVec.eq_of_toNat_eq e.1, e.2]
  refine hinj k j ?_
  unfold keyNum at hk
  rw [List.getElem?_eq_getElem (hlt k), List.getElem?_eq_getElem (hlt j), Option.getD_some, Option.getD_some] at hk
  exact (List.Nodup.getElem_inj_iff hn).1 hk

theorem drawFrame_length (d n : Nat) : (drawFrame d n).length = n := by
  induction n generalizing d with
  | zero => rfl
  | succ n ih => simp [drawFrame, ih]

theorem drawFrame_eq_map (d n : Nat) :
    drawFrame d n =
      (List.range n).map fun p => ⟨freeByte (d + 3 * p), freeByte (d + 3 * p + 1), freeByte (d + 3 * p + 2)⟩ := by
  induction n generalizing d with
  | zero => rfl
  | succ n ih =>
    rw [drawFrame, ih, List.range_succ_eq_map, List.map_cons, List.map_map]
    congr 1
    refine List.map_congr_left fun p _ => ?_
    simp only [Function.comp, Nat.succ_eq_add_one, show d + 3 + 3 * p = d + 3 * (p + 1) by omega]

/-- The moves to come, the words on the port, the answers to come and the draws taken are not of the invariant. -/
theorem Coherent.environment {s : State} (h : Coherent s) (port : List Word) (cfgFail : List Bool) (sched : List Move)
    (draws : Nat) : Coherent { s with port := port, cfgFail := cfgFail, sched := sched, draws := draws } where
  params := h.params
  led := h.led
  frame := h.frame
  busy := h.busy
  txK := h.txK
  gapK := h.gapK
  txC := h.txC
  idleC := h.idleC
  txG := h.txG
  dout := h.dout
  evt := h.evt
  wait := h.wait
  waitEvt := h.waitEvt
  store := h.store

/-- A store in canonical form may take the place of the store (R158). -/
theorem Coherent.withStore {s : State} (h : Coherent s) {m : Memory} (hm : Memory.wf m) : Coherent { s with store := m } where
  params := h.params
  led := h.led
  frame := h.frame
  busy := h.busy
  txK := h.txK
  gapK := h.gapK
  txC := h.txC
  idleC := h.idleC
  txG := h.txG
  dout := h.dout
  evt := h.evt
  wait := h.wait
  waitEvt := h.waitEvt
  store := hm

/-- The controller's effects keep the invariant (R28, R31, R32). -/
theorem Coherent.effect {t : State} (h : Coherent t) (i : Instr) (hw : t.ctlWait = .none)
    (he : t.evt.isSome = isQuad i) : Coherent (effectOf i t) := by
  have hev := effectOf_evt i h.evt
  have hpar := h.params
  have hb := paramsOk_bounds hpar
  rcases effectOf_shape i t with ⟨led, evt, dirty, hs, hl, -⟩ | ⟨hi, hb', hs⟩ | ⟨hi, hbz, hd, hs⟩
  · rw [hs] at hev ⊢
    exact {
      params := h.params, led := hl.trans h.led, frame := h.frame, busy := h.busy, txK := h.txK, gapK := h.gapK,
      txC := h.txC, idleC := h.idleC, txG := h.txG, dout := h.dout, evt := hev, wait := h.wait,
      waitEvt := fun hc => absurd (hw.symm.trans hc) (by simp), store := h.store }
  · rw [hs]
    exact {
      params := h.params, led := h.led, frame := (renderAll_length ..).trans h.led, busy := h.busy, txK := h.txK,
      gapK := h.gapK, txC := h.txC, idleC := h.idleC, txG := h.txG, dout := h.dout, evt := h.evt, wait := h.wait,
      waitEvt := h.waitEvt, store := h.store }
  · subst hi
    have hidle : t.txState = .idle := by
      by_contra hne
      have := h.busy.2 hne
      rw [hbz] at this; cases this
    have hnone : t.evt = none := by simpa [isQuad] using he
    rw [hs]
    exact {
      params := h.params, led := h.led, frame := h.frame, busy := by simp [startTx],
      txK := by simp only [startTx, Params.frameBits, bitsPerLed]; omega,
      gapK := fun hc => by simp [startTx] at hc,
      txC := by simp only [startTx]; omega,
      idleC := fun _ => rfl, txG := h.txG,
      dout := fun _ => h.dout (by rw [hidle]; simp), evt := h.evt,
      wait := by simp only [startTx, waitAtStart]; cases t.params.txStrategy <;> simp [hw],
      waitEvt := fun _ => hnone, store := h.store }

/-- The part of a clock cycle that comes before the command keeps the invariant (R30). -/
theorem Coherent.openCycle {s : State} (h : Coherent s) : Coherent (Machine.openCycle s) := by
  rw [openCycle_eq]
  exact {
    params := h.params, led := h.led, frame := h.frame, busy := h.busy, txK := h.txK, gapK := h.gapK, txC := h.txC,
    idleC := h.idleC, txG := h.txG,
    dout := fun hne => by
      show lineLevel s = false
      have : s.txState ≠ .bits := hne
      unfold lineLevel
      cases ht : s.txState <;> simp_all,
    evt := h.evt, wait := h.wait, waitEvt := h.waitEvt, store := h.store }

/-- The end of a transmission keeps the invariant (R28, R32, R123). -/
theorem Coherent.endGap {s : State} (h : Coherent s) (ht : s.txState = .gap) : Coherent (Machine.endGap s) where
  params := h.params
  led := h.led
  frame := h.frame
  busy := by simp
  txK := h.txK
  gapK := fun hc => by simp at hc
  txC := h.txC
  idleC := fun _ => h.idleC (.inl (by rw [ht]; simp))
  txG := h.txG
  dout := fun _ => h.dout (by rw [ht]; simp)
  evt := h.evt
  wait := by simp
  waitEvt := fun hc => by simp at hc
  store := h.store

/-- The clear of `dirty` and a low line keep the invariant. -/
theorem Coherent.lowLine {s : State} (h : Coherent s) (dirty : Bool) : Coherent { s with dout := false, dirty := dirty } where
  params := h.params
  led := h.led
  frame := h.frame
  busy := h.busy
  txK := h.txK
  gapK := h.gapK
  txC := h.txC
  idleC := h.idleC
  txG := h.txG
  dout := fun _ => rfl
  evt := h.evt
  wait := h.wait
  waitEvt := h.waitEvt
  store := h.store

/-- A bit sent keeps the invariant, when the line is low after it (R23, R122). -/
theorem Coherent.sendBit {s : State} (h : Coherent s) (ht : s.txState = .bits) (wire : List WireSym) (txG : Nat)
    (hg : txG < s.params.resetCycles) :
    Coherent { s with
      wire := wire, txC := 0, txG := txG, dout := false, txState := if lastBit s then .gap else .bits,
      txK := if lastBit s then s.txK else s.txK + 1 } := by
  have hk := h.txK
  have hb := paramsOk_bounds h.params
  have hbusy : s.busy = true := h.busy.2 (by rw [ht]; simp)
  have hc : 0 < s.params.bitCycles := by omega
  cases hl : lastBit s with
  | true =>
    have hlast : s.txK = s.params.frameBits - 1 := by simpa [lastBit] using hl
    exact {
      params := h.params, led := h.led, frame := h.frame, busy := by simp [hbusy], txK := hk, gapK := fun _ => hlast,
      txC := hc, idleC := fun _ => rfl, txG := hg, dout := fun _ => rfl, evt := h.evt, wait := h.wait,
      waitEvt := h.waitEvt, store := h.store }
  | false =>
    have hlast : s.txK ≠ s.params.frameBits - 1 := by simpa [lastBit] using hl
    exact {
      params := h.params, led := h.led, frame := h.frame, busy := by simp [hbusy],
      txK := by show s.txK + 1 < s.params.frameBits; omega,
      gapK := fun hc => by simp at hc, txC := hc, idleC := fun _ => rfl, txG := hg, dout := fun _ => rfl, evt := h.evt,
      wait := h.wait, waitEvt := h.waitEvt, store := h.store }

/-- The engine's bit-level step keeps the invariant (R23, R122, R123). -/
theorem Coherent.engineBit {s : State} (h : Coherent s) (hl : s.params.level = .bit) : Coherent (Machine.engineBit s) := by
  unfold Machine.engineBit
  split
  · exact h
  · next ht =>
    have := h.sendBit ht (s.wire ++ [.bit (frameBit s.frame s.txK)]) s.txG h.txG
    rwa [← h.idleC (.inr hl)] at this
  · next ht => exact (h.endGap ht).lowLine _

/-- The engine registers at the end of a clock cycle keep the invariant, when the line has the cycle's level
(R23, R29, R30, R132). -/
theorem Coherent.cycleRegs {s : State} (h : Coherent s) (hl : s.params.level = .cycle) (hd : s.dout = lineLevel s) :
    Coherent (Machine.cycleRegs s) := by
  have hb := paramsOk_bounds h.params
  unfold Machine.cycleRegs
  split
  · exact h
  · next ht =>
    split
    · next hc =>
      have hlow : s.dout = false := by
        have := (highCycles_lt h.params (frameBit s.frame s.txK)).2.1
        rw [hd]; simp only [lineLevel, ht, hc, decide_eq_false_iff_not]; omega
      split
      · next hlast =>
        have := h.sendBit ht (s.wire ++ [.bit (frameBit s.frame s.txK)]) 0 (by omega)
        rw [hlast, ← hlow] at this
        exact this
      · next hlast =>
        have := h.sendBit ht (s.wire ++ [.bit (frameBit s.frame s.txK)]) s.txG h.txG
        rw [Bool.not_eq_true] at hlast
        simp only [hlast, Bool.false_eq_true, if_false] at this
        rw [← hlow, ← ht] at this
        exact this
    · next hc =>
      have := h.txC
      exact {
        params := h.params, led := h.led, frame := h.frame, busy := h.busy, txK := h.txK, gapK := h.gapK,
        txC := by show s.txC + 1 < s.params.bitCycles; omega,
        idleC := fun hn => by
          rcases hn with hn | hn
          · exact absurd ht hn
          · exact absurd (hl.symm.trans hn) (by simp),
        txG := h.txG, dout := h.dout, evt := h.evt, wait := h.wait, waitEvt := h.waitEvt, store := h.store }
  · next ht =>
    split
    · exact h.endGap ht
    · next hg =>
      have := h.txG
      exact {
        params := h.params, led := h.led, frame := h.frame, busy := h.busy, txK := h.txK, gapK := h.gapK,
        txC := h.txC, idleC := h.idleC, txG := by show s.txG + 1 < s.params.resetCycles; omega, dout := h.dout,
        evt := h.evt, wait := h.wait, waitEvt := h.waitEvt, store := h.store }

@[simp] theorem openCycle_dout (s : State) : (openCycle s).dout = lineLevel s := by rw [openCycle_eq]
@[simp] theorem openCycle_lineLevel (s : State) : lineLevel (openCycle s) = lineLevel s := by rw [openCycle_eq]; rfl

/-- The engine's turn touches nothing the controller's commands write but `dirty`, and with it only by the clear at the end of
the gap. -/
theorem engineTurn_frame (s : State) : (engineTurn s).frame = s.frame ∧ (engineTurn s).led = s.led ∧
    (engineTurn s).phase = s.phase ∧ (engineTurn s).evt = s.evt ∧ (engineTurn s).port = s.port ∧
    (engineTurn s).store = s.store ∧ (engineTurn s).cfgFail = s.cfgFail ∧ (engineTurn s).draws = s.draws := by
  unfold Machine.engineTurn
  split
  · unfold Machine.engineBit
    split <;> exact ⟨rfl, rfl, rfl, rfl, rfl, rfl, rfl, rfl⟩
  · show (Machine.cycleRegs (Machine.openCycle s)).frame = _ ∧ (Machine.cycleRegs (Machine.openCycle s)).led = _ ∧
      (Machine.cycleRegs (Machine.openCycle s)).phase = _ ∧ (Machine.cycleRegs (Machine.openCycle s)).evt = _ ∧
      (Machine.cycleRegs (Machine.openCycle s)).port = _ ∧ (Machine.cycleRegs (Machine.openCycle s)).store = _ ∧
      (Machine.cycleRegs (Machine.openCycle s)).cfgFail = _ ∧ (Machine.cycleRegs (Machine.openCycle s)).draws = _
    simp

/-- The engine's turn keeps the invariant. -/
theorem Coherent.engineTurn {s : State} (h : Coherent s) : Coherent (Machine.engineTurn s) := by
  unfold Machine.engineTurn
  split
  · next hl => exact h.engineBit hl
  · next hl => exact h.openCycle.cycleRegs (by simpa using hl) (by simp)

/-- Commands accepted by the controller keep the invariant. -/
theorem Coherent.controllerRun {s t : State} (h : Coherent s) (hn : controllerRun s = .next t) : Coherent t := by
  rcases controllerRun_next hn with rfl | ⟨w, ws, i, -, -, -, he⟩
  · exact h
  · rcases exec_next he with rfl | ⟨hw, hq, rfl⟩
    · exact h
    · exact (h.environment s.port.tail s.cfgFail s.sched s.draws).effect i hw hq

/-- A command does not touch the registers of a busy engine, nor the frame it sends (R56, R113, R137). -/
theorem controllerRun_busy {s t : State} (hb : s.busy = true) (h : controllerRun s = .next t) :
    ∃ led evt dirty port, t = { s with led := led, evt := evt, dirty := dirty, port := port } ∧
      (s.dirty = true → dirty = true) := by
  rcases controllerRun_next h with rfl | ⟨w, ws, i, -, -, -, he⟩
  · exact ⟨t.led, t.evt, t.dirty, t.port, rfl, id⟩
  · rcases exec_next he with rfl | ⟨-, -, rfl⟩
    · exact ⟨t.led, t.evt, t.dirty, t.port, rfl, id⟩
    · obtain ⟨led, evt, dirty, hs, -, hd⟩ := effectOf_busy i (t := s.accept) hb
      exact ⟨led, evt, dirty, s.port.tail, hs, hd⟩

/-- The controller's turn keeps the invariant. -/
theorem Coherent.controllerTurn {s t : State} (h : Coherent s) (hn : controllerTurn s = .next t) : Coherent t := by
  rcases controllerTurn_next hn with ⟨-, hr⟩ | ⟨hl, u, hr, rfl⟩
  · exact h.controllerRun hr
  · have hu := h.openCycle.controllerRun hr
    unfold closeCycle
    split
    · exact hu
    · next ht =>
      have hb : (Machine.openCycle s).busy = true := by rw [openCycle_busy]; exact h.busy.2 ht
      obtain ⟨led, evt, dirty, port, rfl, -⟩ := controllerRun_busy hb hr
      exact hu.cycleRegs (by simpa using hl) (by show (Machine.openCycle s).dout = lineLevel (Machine.openCycle s); simp)

/-- The reset state of an instance with legal parameters meets the invariant, whatever the environment holds (R37 to R43,
R163). -/
theorem Coherent.bootReset {s : State} (h : Coherent s) : Coherent (Machine.bootReset s) where
  params := h.params
  led := by simp [Machine.bootReset]
  frame := drawFrame_length _ _
  busy := by simp [Machine.bootReset]
  txK := by have := paramsOk_bounds h.params; simp only [Machine.bootReset, Params.frameBits, bitsPerLed]; omega
  gapK := fun hc => by simp [Machine.bootReset] at hc
  txC := by have := paramsOk_bounds h.params; simp only [Machine.bootReset]; omega
  idleC := fun _ => rfl
  txG := by have := paramsOk_bounds h.params; simp only [Machine.bootReset]; omega
  dout := fun _ => rfl
  evt := fun a ha => by simp [Machine.bootReset] at ha
  wait := by simp [Machine.bootReset]
  waitEvt := fun _ => rfl
  store := h.store

end Sys2Proof.Machine
end

