-- ==== Sys2Proof/Laws/PerInstr.lean ====
section
/-! SUPPORT. The statements made of every instruction, one lemma per constructor. -/

namespace Sys2Proof

/-- The word of a command, when its fields meet its row. -/
theorem encode_row {i : Instr} (h : ∃ x ∈ tableRows i.fields, x.2 = true ∧ x.1 = i.mnemonic) :
    ∃ r ∈ opRows, r.hit (encode i) = true ∧ r.mnemonic = i.mnemonic := by
  refine (exists_hit_iff _ (· = i.mnemonic)).2 ?_
  rwa [encode, Fields.ofWord_toWord]

/-- A row matches the word of the instruction and bears its mnemonic (R69 to R73). -/
def Laws.TableRow.Statement (i : Instr) : Prop := ∃ r ∈ opRows, r.hit (encode i) = true ∧ r.mnemonic = i.mnemonic

theorem Laws.TableRow.upd (s e : Pos) (pair : Byte) : Laws.TableRow.Statement (.upd s e pair) :=
  encode_row (tableRows_of_decode (Fields.decode_fields _))
theorem Laws.TableRow.evt (evop k : Byte) : Laws.TableRow.Statement (.evt evop k) :=
  encode_row (tableRows_of_decode (Fields.decode_fields _))
theorem Laws.TableRow.evtFail (evop : Byte) : Laws.TableRow.Statement (.evtFail evop) :=
  encode_row (tableRows_of_decode (Fields.decode_fields _))
theorem Laws.TableRow.quad (am : Byte) (s e : Pos) (pair : Byte) : Laws.TableRow.Statement (.quad am s e pair) :=
  encode_row (tableRows_of_decode (Fields.decode_fields _))
theorem Laws.TableRow.refresh : Laws.TableRow.Statement .refresh :=
  encode_row (tableRows_of_decode (Fields.decode_fields _))
theorem Laws.TableRow.tick : Laws.TableRow.Statement .tick :=
  encode_row (tableRows_of_decode (Fields.decode_fields _))
theorem Laws.TableRow.service : Laws.TableRow.Statement .service :=
  encode_row (tableRows_of_decode (Fields.decode_fields _))
theorem Laws.TableRow.freset : Laws.TableRow.Statement .freset :=
  encode_row (tableRows_of_decode (Fields.decode_fields _))

end Sys2Proof
end

