-- ==== Sys2Proof/Tests/Slice0.lean ====
section
/-! SUPPORT. Tests: expected results from the tables and examples of spec/, and a witness for the hypotheses of each statement. -/

namespace Sys2Proof.Tests

open Sys2Proof.Machine

/-! ### Helpers: small states with a written frame -/

/-- The next state of an outcome. -/
def nextOf : Result → Option State
  | .next s => some s
  | .fault _ => none
  | .refused _ => none

/-- The ground of a refusal. -/
def refusedOf : Result → Option Refusal
  | .refused r => some r
  | .next _ => none
  | .fault _ => none

/-- The reason of a fault. -/
def faultOf : Result → Option Fault
  | .fault r => some r
  | .next _ => none
  | .refused _ => none

/-- Two outcomes one after the other. -/
def andThen (r : Result) (f : State → Result) : Result :=
  match r with
  | .next s => f s
  | .fault x => .fault x
  | .refused x => .refused x

/-- A strip of `n` LEDs after reset, its frame written `A5 0F 80` in every entry. -/
def strip (n : Nat) : State :=
  { State.resetWith { Params.default with capacity := n } with frame := List.replicate n ⟨0xA5, 0x0F, 0x80⟩, draws := 0 }

/-- 95_test_vectors.md 2.5: one LED with the pair (1, 0), palette[1] = 11 22 33, every other colour 0, the order byte `v`. -/
def tickBase (v : Byte) : State :=
  { strip 1 with
    led := [⟨1, 0⟩],
    store := [(0, 0), (1, 0), (2, 0), (3, 0x11), (4, 0x22), (5, 0x33)] ++ (List.range 42).map (fun k => (k + 6, 0)) ++
      [(48, v)] }

/-- A transmission just started. -/
def sending : State := { strip 1 with busy := true, txState := .bits }

/-- A transmission in its gap. -/
def gapping : State := { strip 1 with busy := true, txState := .gap, txK := 23 }

/-- A transmission just started under `BLOCKING`. -/
def blocked : State :=
  { sending with params := { sending.params with txStrategy := .blocking }, ctlWait := .tx }

/-- The same machine at cycle level. -/
def atCycle (s : State) : State := { s with params := { s.params with level := .cycle } }

/-- The same machine with other parameters under the three policies. -/
def under (s : State) (d : DirtyClear) (b : TickBusyPolicy) (x : TxStrategy) : State :=
  { s with params := { s.params with dirtyClear := d, tickBusyPolicy := b, txStrategy := x } }

/-- The words `ws` on the port and the controller's turn next. -/
def given (s : State) (ws : List Word) : State := { s with port := ws, sched := [.controller] }

/-- An event open. -/
def openEvent (pol : Polarity) (expected : Nat) (quads : List Quad) (s : State) : State :=
  { s with evt := some ⟨pol, expected, quads⟩ }

/-- The checks of the invariant on a state with no event open, all decidable. -/
theorem coherentIf {s : State}
    (h : paramsOk s.params = true ∧ s.led.length = s.params.capacity ∧ s.frame.length = s.params.capacity ∧
      (s.busy = true ↔ s.txState ≠ .idle) ∧ s.txK < s.params.frameBits ∧
      (s.txState = .gap → s.txK = s.params.frameBits - 1) ∧ s.txC < s.params.bitCycles ∧
      (s.txState ≠ .bits ∨ s.params.level = .bit → s.txC = 0) ∧ s.txG < s.params.resetCycles ∧
      (s.txState ≠ .bits → s.dout = false) ∧ s.evt = none ∧
      (s.ctlWait = .tx ↔ s.params.txStrategy = .blocking ∧ s.busy = true) ∧ Memory.wf s.store) : Coherent s := by
  obtain ⟨h1, h2, h3, h4, h5, h6, h7, h8, h9, h10, h11, h12, h13⟩ := h
  exact ⟨h1, h2, h3, h4, h5, h6, h7, h8, h9, h10, (fun a ha => by rw [h11] at ha; cases ha), h12, fun _ => h11, h13⟩

/-! ### Well-formedness: each check refuses an ill-formed term -/

theorem test_stream_stray_quad : streamCheck 0 [.quad 1 0 0 0] = some .strayQuad := by decide
theorem test_stream_event_interrupted : streamCheck 0 [.evt 0x90 2, .quad 1 0 0 0, .tick] = some .eventInterrupted := by
  decide
theorem test_stream_event_unfinished : streamCheck 0 [.evt 0x90 2, .quad 1 0 0 0] = some .eventUnfinished := by decide
theorem test_stream_ok : streamCheck 0 [.evt 0x90 1, .quad 1 0 0 0, .tick] = none := by decide
theorem test_params_default_ok : paramsOk Params.default = true := by decide
theorem test_params_capacity : paramsOk { Params.default with capacity := 0 } = false ∧
    paramsOk { Params.default with capacity := 65537 } = false ∧
    paramsOk { Params.default with capacity := 65536 } = true := by decide
theorem test_params_timing : paramsOk { Params.default with h0Cycles := 20 } = false ∧
    paramsOk { Params.default with h1Cycles := 30 } = false ∧ paramsOk { Params.default with h0Cycles := 0 } = false ∧
    paramsOk { Params.default with resetCycles := 0 } = false := by decide
theorem test_params_key_map : paramsOk { Params.default with cfgKeyMap := List.replicate 49 0 } = false := by decide

/-! ### Decoding: words written out from R66 to R73 and 95_test_vectors.md 2.3 -/

/-- W1 from its fields: OP 0001, FLG 0000, A 0, S 2, E 10, K 0, P 0101 0000. -/
theorem test_decode_upd :
    decode (0b0001000000000000000000000000001000000000000010100000000001010000) = .instr (.upd 2 10 0x50) := by decide
/-- W2: OP 0010, FLG 0000, A 1001 0001, S 0, E 0, K 1, P 0. -/
theorem test_decode_evt :
    decode (0b0010000010010001000000000000000000000000000000000000000100000000) = .instr (.evt 0x91 1) := by decide
/-- W4: OP 0010, FLG 0001, A 1001 0000, the rest 0. -/
theorem test_decode_evtFail :
    decode (0b0010000110010000000000000000000000000000000000000000000000000000) = .instr (.evtFail 0x90) := by decide
/-- W3: OP 0011, FLG 0000, A 0000 0001, S 0, E 3, K 0, P 0010 0011. -/
theorem test_decode_quad :
    decode (0b0011000000000001000000000000000000000000000000110000000000100011) = .instr (.quad 1 0 3 0x23) := by decide
/-- W5: OP 0100 to 0111, the rest 0. -/
theorem test_decode_refresh : decode (0b0100 <<< 60) = .instr .refresh := by decide
theorem test_decode_tick : decode (0b0101 <<< 60) = .instr .tick := by decide
theorem test_decode_service : decode (0b0110 <<< 60) = .instr .service := by decide
theorem test_decode_freset : decode (0b0111 <<< 60) = .instr .freset := by decide
/-- W6, W7. -/
theorem test_decode_reserved : decode 0 = .illegal (.reservedOpcode 0) ∧
    decode 0x8000000000000000 = .illegal (.reservedOpcode 8) ∧
    decode 0xF000000000000000 = .illegal (.reservedOpcode 15) := by decide
/-- W8 to W12. -/
theorem test_decode_nonzero : decode 0x1200000000000000 = .illegal (.nonzeroField 1) ∧
    decode 0x1000000000000110 = .illegal (.nonzeroField 1) ∧ decode 0x2190000000000100 = .illegal (.nonzeroField 2) ∧
    decode 0x4010000000000000 = .illegal (.nonzeroField 4) ∧
    decode 0x5000000000000001 = .illegal (.nonzeroField 5) := by decide
/-- The host's reading of a table word. -/
theorem test_decodeTableWord : decodeTableWord 64 0x10000002000A0050 = some (.upd 2 10 0x50) ∧
    decodeTableWord 64 0 = none := by decide

/-! ### UPD (2.1) -/

/-- U1 under both layouts. -/
theorem test_upd_one_record :
    (nextOf (exec (.upd 0 0 0xAB) (strip 1))).map (fun t => (t.led, t.dirty)) = some ([⟨10, 11⟩], true) ∧
    (nextOf (exec (.upd 0 0 0xAB)
      { strip 1 with params := { (strip 1).params with pairLayout := .onLow } })).map (·.led) = some [⟨11, 10⟩] := by
  decide
/-- U8, through the port. -/
theorem test_upd_clamps : (nextOf (step ((strip 8).withFetchWord 64 0x10000002000A0050))).map (fun t => (t.led, t.port)) =
    some ([⟨0, 0⟩, ⟨0, 0⟩, ⟨5, 0⟩, ⟨5, 0⟩, ⟨5, 0⟩, ⟨5, 0⟩, ⟨5, 0⟩, ⟨5, 0⟩], []) := by decide

/-! ### EVT, QUAD, EVT.FAIL, FRESET (2.2) -/

/-- E6 and E10's header. -/
theorem test_evt_header : (nextOf (exec (.evt 0x90 0) (strip 8))).map (fun t => (t.evt, t.dirty)) = some (none, true) ∧
    (nextOf (exec (.evt 0x90 2) (strip 8))).map (fun t => (t.evt, t.dirty)) = some (some ⟨.on, 2, []⟩, false) := by decide
/-- E11. -/
theorem test_evt_interrupted : refusedOf (exec .tick (openEvent .on 1 [⟨1, 0, 7, 0x11⟩] (strip 8))) = some .eventInterrupted := by
  decide
/-- E7: the later quadruple wins. -/
theorem test_quad_last_wins :
    (nextOf (exec (.quad 1 3 4 0x22) (openEvent .on 1 [⟨1, 1, 6, 0x11⟩] (strip 8)))).map (fun t => (t.led, t.evt, t.dirty)) =
      some ([⟨0, 0⟩, ⟨1, 1⟩, ⟨1, 1⟩, ⟨2, 2⟩, ⟨2, 2⟩, ⟨1, 1⟩, ⟨1, 1⟩, ⟨0, 0⟩], none, true) := by decide
/-- E8 and E9: one pair of masks under either polarity. -/
theorem test_quad_masks :
    (nextOf (exec (.quad 0xFD 0 1 0x21) (openEvent .off 1 [⟨2, 0, 1, 0xF1⟩] (strip 2)))).map (·.led) =
      some [⟨15, 1⟩, ⟨15, 1⟩] ∧
    (nextOf (exec (.quad 0xFD 0 1 0x21) (openEvent .on 1 [⟨2, 0, 1, 0xF1⟩] (strip 2)))).map (·.led) =
      some [⟨2, 1⟩, ⟨2, 1⟩] := by decide
/-- E13. -/
theorem test_evtFail_no_effect : nextOf (exec (.evtFail 0x90) (strip 8)) = some (strip 8) := by decide
/-- F1. -/
theorem test_freset_keeps_dirty :
    (nextOf (exec .freset { strip 2 with led := [⟨5, 6⟩, ⟨5, 6⟩] })).map (fun t => (t.led, t.dirty)) =
      some ([⟨0, 0⟩, ⟨0, 0⟩], false) := by decide

/-! ### TICK (2.4, 2.5) -/

/-- T1, T2. -/
theorem test_tick_both_phases :
    (nextOf (exec .tick (tickBase 2))).map (fun t => (t.phase, t.frame, t.dirty)) =
      some (.on, [⟨0x22, 0x11, 0x33⟩], true) ∧
    (nextOf (exec .tick { tickBase 2 with phase := .on })).map (fun t => (t.phase, t.frame)) =
      some (.off, [⟨0, 0, 0⟩]) := by decide
/-- P4, P5, T4: the orders whose inverse is not themselves, and an invalid order byte. -/
theorem test_tick_orders :
    (nextOf (exec .tick (tickBase 3))).map (·.frame) = some [⟨0x22, 0x33, 0x11⟩] ∧
    (nextOf (exec .tick (tickBase 4))).map (·.frame) = some [⟨0x33, 0x11, 0x22⟩] ∧
    (nextOf (exec .tick (tickBase 200))).map (·.frame) = some [⟨0x11, 0x22, 0x33⟩] := by decide

/-- P11 seen through a TICK in order GRB: the failed read of channel G alone is a draw, the others are as stored. -/
theorem test_tick_failed_read :
    (nextOf (exec .tick { tickBase 2 with cfgFail := [false, true] })).map (fun t => (t.frame, t.draws)) =
      some ([⟨freeByte 0, 0x11, 0x33⟩], 1) := by rfl

/-! ### SERVICE, REFRESH and the engine (2.6 to 2.8) -/

/-- S2, S3. -/
theorem test_service_starts :
    (nextOf (exec .service { strip 1 with dirty := true })).map (fun t => (t.busy, t.txState, t.txK, t.dirty)) =
      some (true, .bits, 0, false) ∧
    (nextOf (exec .service (under { strip 1 with dirty := true } .atComplete .hold .engine))).map (·.dirty) =
      some true := by decide
/-- S4, S9. -/
theorem test_service_defers_or_blocks : nextOf (exec .service { sending with dirty := true }) = some { sending with dirty := true } ∧
    (nextOf (exec .service (under { strip 1 with dirty := true } .atStart .hold .blocking))).map (·.ctlWait) =
      some .tx := by decide
/-- S6, S8. -/
theorem test_refresh : nextOf (exec .refresh (strip 1)) = some { strip 1 with dirty := true } ∧
    (nextOf (andThen (exec .refresh (under gapping .atComplete .hold .engine))
      (fun s => step { s with sched := [.engine] }))).map (·.dirty) = some false := by decide
/-- N1, N2, N3 on the frame of B1 (bit 5 of A5 is 1, bit 23 of A5 0F 80 is 0). -/
theorem test_engine_bit_level :
    (nextOf (step { sending with txK := 5, sched := [.engine] })).map (fun t => (t.wire, t.txK, t.txState)) =
      some ([.gap, .bit true], 6, .bits) ∧
    (nextOf (step { sending with txK := 23, sched := [.engine] })).map (fun t => (t.wire, t.txK, t.txState)) =
      some ([.gap, .bit false], 23, .gap) ∧
    (nextOf (step { gapping with sched := [.engine] })).map (fun t => (t.wire, t.txState, t.busy)) =
      some ([.gap, .gap], .idle, false) := by decide
/-- V3, V4 at the edges: the last high and the first low cycle of a 1 (bit 0 of B1) and of a 0 (bit 1). -/
theorem test_engine_cycle_level :
    (nextOf (step (atCycle { sending with txC := 19, sched := [.engine] }))).map (·.dout) = some true ∧
    (nextOf (step (atCycle { sending with txC := 20, sched := [.engine] }))).map (·.dout) = some false ∧
    (nextOf (step (atCycle { sending with txK := 1, txC := 9, sched := [.engine] }))).map (·.dout) = some true ∧
    (nextOf (step (atCycle { sending with txK := 1, txC := 10, sched := [.engine] }))).map (·.dout) = some false := by
  decide
/-- V10: in the last cycle of the gap SERVICE is deferred. -/
theorem test_service_in_completing_cycle :
    (nextOf (step (given (atCycle { gapping with txG := 1199, dirty := true }) [0x6000000000000000]))).map
      (fun t => (t.busy, t.dirty, t.port)) = some (false, true, []) := by decide
/-- Z2 at cursor 1: the bits sent, then the reset's gap. -/
theorem test_reset_in_flight :
    (nextOf (step { sending with txK := 1, wire := [.gap, .bit true], sched := [.reset 0] })).map
      (fun t => (t.wire, t.busy, t.txState, t.txK)) = some ([.gap, .bit true, .gap], false, .idle, 0) := by decide
/-- The reset store is in canonical form. -/
theorem test_reset_store_wf : Memory.wf State.reset.store := by decide

/-! ### Assembler (R80 to R82) -/

theorem test_assemble_text : assembleText Params.default
    ("UPD 2, 0x000A, 0x50 ; a range\n\nEVT 0x91, 1\nQ.OFF 0, 1, ".toList ++ [Char.ofNat 0x7B] ++ "on: 1, off: 2".toList ++
      [Char.ofNat 0x7D] ++ "\n RENDER".toList) =
    some [0x10000002000A0050, 0x2091000000000100, 0x3002000000010012, 0x5000000000000000, 0x6000000000000000] := by decide
theorem test_assemble_refuses : assembleText Params.default "UPD 65536, 0, 0".toList = none ∧
    assembleText Params.default "EVT 0x90, 1\nTICK".toList = none ∧
    assembleText Params.default "tick".toList = none := by decide

/-! ### Witnesses: states and operands that meet the hypotheses of each statement -/

theorem test_witness_EncodeOfDecode : decode 0x20FF00000000FF00 = .instr (.evt 0xFF 0xFF) := by decide
theorem test_witness_DecodeFollowsTheOpcodeTable : decode 0x7000000000000000 = .instr .freset ∧
    (⟨"FRESET", 0x7000000000000000, 0xFFFFFFFFFFFFFFFF⟩ : OpRow) ∈ opRows ∧
    OpRow.hit ⟨"FRESET", 0x7000000000000000, 0xFFFFFFFFFFFFFFFF⟩ 0x7000000000000000 = true := by decide

/-- Both ends of the reserved codes; the refusal itself at both levels. -/
theorem test_witness_ReservedOpcodeIsRefused :
    ((0 : Word).extractLsb' 60 4 = 0 ∧ 8 ≤ ((0x8000000000000000 : Word).extractLsb' 60 4).toNat) ∧
    ((given (strip 1) [0x8000000000000000]).sched = .controller :: [] ∧
      (given (strip 1) [0x8000000000000000]).port = [0x8000000000000000] ∧
      (given (strip 1) [0x8000000000000000]).ctlWait = .none) ∧
    refusedOf (step (given (strip 1) [0x8000000000000000])) = some (.reservedOpcode 8) ∧
    refusedOf (step (atCycle (given (strip 1) [0]))) = some (.reservedOpcode 0) := by decide
/-- Both ends of the legal codes. -/
theorem test_witness_NonzeroReservedBitIsRefused :
    ((0x1000000000000110 : Word).extractLsb' 60 4).toNat = 1 ∧ (∀ r ∈ opRows, r.hit 0x1000000000000110 = false) ∧
    ((0x7000000000000001 : Word).extractLsb' 60 4).toNat = 7 ∧ (∀ r ∈ opRows, r.hit 0x7000000000000001 = false) ∧
    refusedOf (step (given (strip 1) [0x1000000000000110])) = some (.nonzeroField 1) ∧
    refusedOf (step (atCycle (given (strip 1) [0x7000000000000001]))) = some (.nonzeroField 7) := by decide

/-- The four clauses, one state each; the third with a TICK that SKIP lets run in flight. -/
theorem test_witness_StepRunsTheWordAtThePort :
    ((given (strip 1) [0x4000000000000000]).sched = .controller :: [] ∧ decode 0x4000000000000000 = .instr .refresh ∧
      (given (strip 1) [0x4000000000000000]).params.level = .bit) ∧
    ((atCycle (given (strip 1) [0x4000000000000000])).params.level = .cycle ∧
      (nextOf (exec .refresh (clearDirtyAtGapEnd (driveLine
        { atCycle (given (strip 1) [0x4000000000000000]) with sched := [] })))).isSome = true) ∧
    ((under { sending with port := [0x5000000000000000] } .atStart .skip .engine).busy = true ∧
      (under { sending with port := [0x5000000000000000] } .atStart .skip .engine).sched = [] ∧
      (under { sending with port := [0x5000000000000000] } .atStart .skip .engine).ctlWait = .none ∧
      (under { sending with port := [0x5000000000000000] } .atStart .skip .engine).params.tickBusyPolicy = .skip) ∧
    (decodeTableWord 64 0x7000000000000000 = some .freset ∧ 0x7000000000000000 < 2 ^ 64) := by decide
/-- At either level, with an illegal word on the port. -/
theorem test_witness_NothingIsAcceptedDuringTheWait : blocked.ctlWait = .tx ∧ blocked.params.level = .bit ∧
    (given blocked [0]).sched = .controller :: [] ∧ nextOf (step (given blocked [0])) = some { blocked with port := [0] } ∧
    (atCycle (given blocked [0])).params.level = .cycle ∧
    (nextOf (step (atCycle (given blocked [0])))).map (fun t => (t.port, t.txC)) = some ([0], 1) := by
  decide
theorem test_witness_SequenceErrorsAreRefused : (strip 1).ctlWait = .none ∧ (strip 1).evt = none ∧
    (openEvent .on 1 [] (strip 1)).evt.isSome = true ∧ (openEvent .on 1 [] (strip 1)).ctlWait = .none ∧
    refusedOf (exec .freset (openEvent .on 1 [] (strip 1))) = some .eventInterrupted := by decide
/-- Every ground occurs. -/
theorem test_witness_OnlyIllegalRunsAreRefused :
    refusedOf (step (given (strip 1) [0])) = some (.reservedOpcode 0) ∧
    refusedOf (step (given (strip 1) [0x4000000000000001])) = some (.nonzeroField 4) ∧
    refusedOf (step (given (strip 1) [0x3001000000030023])) = some .strayQuad ∧
    refusedOf (step (given (openEvent .on 1 [] (strip 1)) [0x4000000000000000])) = some .eventInterrupted ∧
    refusedOf (step (atCycle { strip 1 with sched := [.reset 1199] })) = some .resetTooShort := by decide

/-- An idle strip and one with a transmission in flight both accept commands: the hypothesis of
UpdOverwritesTheClampedRange, LaterUpdateWins, EvtHeaderOpensTheEvent, FailedEventHasNoEffect, FresetClearsOnlyTheRecords
and RefreshOnlySetsDirty. -/
theorem test_witness_Accepting : Accepting (strip 1) ∧ Accepting sending := by decide
/-- Inverted by one, and the first position beyond the strip. -/
theorem test_witness_EmptyRangeOnlySetsDirty : Accepting (strip 8) ∧
    min (3 : Pos).toNat ((strip 8).params.capacity - 1) < (4 : Pos).toNat ∧
    min (0xFFFF : Pos).toNat ((strip 8).params.capacity - 1) < (8 : Pos).toNat := by decide
theorem test_witness_QuadIsReceivedInOrder : (openEvent .on 2 [] (strip 1)).evt = some ⟨.on, 2, []⟩ ∧
    (openEvent .on 2 [] (strip 1)).ctlWait = .none ∧ 2 ≤ (⟨.on, 2, []⟩ : EvtAcc).expected := by decide
theorem test_witness_LastQuadAppliesTheEvent : (openEvent .off 1 [⟨1, 0, 0, 0⟩] (strip 1)).evt = some ⟨.off, 1, [⟨1, 0, 0, 0⟩]⟩ ∧
    (openEvent .off 1 [⟨1, 0, 0, 0⟩] (strip 1)).ctlWait = .none := by decide
/-- An event of one quadruple and the empty event. -/
theorem test_witness_EventIsAllOrNothing :
    (Accepting (strip 1) ∧ (strip 1).params.level = .bit ∧ [(⟨1, 0, 0, 0x12⟩ : Quad)].length = (1 : Byte).toNat ∧
      [encode (.evt 0x90 1), encode (.quad 1 0 0 0x12)] =
        encode (.evt 0x90 1) :: ([(⟨1, 0, 0, 0x12⟩ : Quad)].map fun q => encode (.quad q.am q.s q.e q.pair)) ++ [] ∧
      [Move.controller, .controller] = List.replicate ((1 : Byte).toNat + 1) .controller ++ []) ∧
    (([] : List Quad).length = (0 : Byte).toNat ∧
      [Move.controller] = List.replicate ((0 : Byte).toNat + 1) .controller ++ []) := by decide
theorem test_witness_IgnoredBitsHaveNoEffect : (0x90 : Byte).toNat % 2 = (0x02 : Byte).toNat % 2 ∧
    (0x01 : Byte).toNat % 4 = (0xFD : Byte).toNat % 4 ∧ (openEvent .on 1 [] (strip 1)).evt = some ⟨.on, 1, []⟩ := by decide

theorem test_witness_DefaultOrderMap :
    ({ Params.default with defaultOrder := .bgr } : Params).orderMap = Params.default.orderMap := by decide
theorem test_witness_FailedReadIsAFreshDraw :
    Memory.read (tickBase 2).store (keyNum (tickBase 2).params .order) = some 2 ∧
    Memory.read (strip 1).store (keyNum (strip 1).params .order) = none := by decide
/-- The bytes of `tickBase v`. -/
def tickBytes (v : Byte) : CfgKey → Byte
  | .colour i c => if i = 1 then (match c with | .r => 0x11 | .g => 0x22 | .b => 0x33) else 0
  | .order => v
/-- The hypotheses of TickCompletesWhateverTheReadsAnswer, TickRendersTheNewPhase and TwoTicksReproduceTheFrame. -/
theorem test_witness_StoreHolds : Accepting (tickBase 2) ∧ (tickBase 2).busy = false ∧
    StoreHolds (tickBase 2) (tickBytes 2) := by
  refine ⟨by decide, by decide, by decide, fun key => ?_⟩
  cases key with
  | order => decide
  | colour i c => revert i; cases c <;> decide
theorem test_witness_TickInFlightIsHeldOrSkipped : Accepting sending ∧ sending.busy = true ∧
    sending.params.tickBusyPolicy = .hold ∧
    Accepting (under sending .atStart .skip .engine) ∧
    (under sending .atStart .skip .engine).params.tickBusyPolicy = .skip := by decide
theorem test_witness_PhaseSequenceFromReset : Params.default.level = .bit := by decide
/-- Two key maps and two stores: the keys read are the same, under numbers 0..48 and 1..49. -/
theorem test_witness_KeyNumbersDoNotMatter :
    (∀ key, Memory.read ((tickBase 2).store.map fun c => (c.1 + 1, c.2))
      (keyNum { (tickBase 2).params with cfgKeyMap := (List.range 49).map (· + 1) } key) =
        Memory.read (tickBase 2).store (keyNum (tickBase 2).params key)) ∧
    (nextOf (exec .tick (tickBase 2))).isSome = true := by
  refine ⟨fun key => ?_, by decide⟩
  cases key with
  | order => decide
  | colour i c => revert i; cases c <;> decide

theorem test_witness_ServiceStartsOrDefers : Accepting { strip 1 with dirty := true } ∧
    ({ strip 1 with dirty := true } : State).busy = false ∧ (strip 1).dirty = false ∧
    Accepting { sending with dirty := true } ∧ sending.busy = true := by decide
theorem test_witness_EmitSendsOneBit : sending.params.level = .bit ∧ sending.txState = .bits ∧
    ({ sending with sched := [.engine] } : State).sched = .engine :: [] ∧ sending.txK = 0 ∧
    ({ sending with txK := 23 } : State).txK = 24 * sending.params.capacity - 1 := by decide
theorem test_witness_CompleteEndsTheTransmission : gapping.txState = .gap ∧ (strip 1).txState = .idle ∧
    gapping.params.level = .bit ∧ ({ gapping with sched := [.engine] } : State).sched = .engine :: [] := by decide
theorem test_witness_coherent_idle : Coherent (strip 1) := coherentIf (by decide)
theorem test_witness_coherent_sending : Coherent sending ∧ Coherent blocked :=
  ⟨coherentIf (by decide), coherentIf (by decide)⟩
theorem test_witness_coherent_gapping : Coherent gapping := coherentIf (by decide)
theorem test_witness_TransmissionSendsTheWholeFrame :
    Coherent { sending with sched := List.replicate 25 .engine } ∧ sending.params.level = .bit ∧
      sending.txState = .bits ∧ sending.txK = 0 ∧
      List.replicate 25 Move.engine = List.replicate (24 * sending.params.capacity + 1) .engine ++ [] :=
  ⟨coherentIf (by decide), by decide⟩
/-- A hold by HOLD and a hold by the wait of BLOCKING; the first bit, the last bit and the gap. -/
theorem test_witness_HeldTickExecutesAfterCompletion :
    (Coherent { sending with port := [0x5000000000000000] } ∧ Coherent { blocked with port := [0x5000000000000000] } ∧
      Coherent { sending with port := [0x5000000000000000], txK := 23 } ∧
      Coherent { gapping with port := [0x5000000000000000] }) ∧
    sending.params.level = .bit ∧ blocked.params.level = .bit ∧ sending.sched = [] ∧ blocked.sched = [] ∧
    sending.evt = none ∧ sending.busy = true ∧ blocked.busy = true ∧ sending.params.tickBusyPolicy = .hold ∧
    blocked.params.txStrategy = .blocking :=
  ⟨⟨coherentIf (by decide), coherentIf (by decide), coherentIf (by decide), coherentIf (by decide)⟩, by decide⟩
/-- The hypotheses of BitPeriodRefinesEmit, and of BitPeriodWaveform at the last cycle of the period. -/
theorem test_witness_BitPeriodRefinesEmit :
    paramsOk (atCycle sending).params = true ∧ (atCycle sending).params.level = .cycle ∧
    (atCycle sending).txState = .bits ∧ (atCycle sending).txC = 0 ∧
    List.replicate 30 Move.engine = List.replicate (atCycle sending).params.bitCycles .engine ++ [] ∧
    29 < (atCycle sending).params.bitCycles := by decide
theorem test_witness_GapRefinesComplete :
    paramsOk (atCycle gapping).params = true ∧ (atCycle gapping).params.level = .cycle ∧
    (atCycle gapping).txState = .gap ∧ (atCycle gapping).txG = 0 ∧
    List.replicate 1200 Move.engine = List.replicate (atCycle gapping).params.resetCycles .engine ++ [] :=
  ⟨by decide, rfl, rfl, rfl, (List.append_nil _).symm⟩
/-- At the last cycle of the transmission and the one after it. -/
theorem test_witness_TransmissionLastsExactly :
    Coherent { atCycle sending with sched := List.replicate 1920 .engine } ∧ (atCycle sending).txState = .bits ∧ (atCycle sending).txK = 0 ∧ (atCycle sending).txC = 0 ∧
    24 * (atCycle sending).params.capacity * (atCycle sending).params.bitCycles + (atCycle sending).params.resetCycles =
      1920 ∧ 1919 ≤ 1920 :=
  ⟨coherentIf ⟨by decide, rfl, rfl, by decide, by decide, by decide, by decide, by decide, by decide, by decide, rfl,
    by decide, by decide⟩, by decide⟩
/-- The last cycle of the gap, with a REFRESH under AT_COMPLETE, a held TICK, and the last QUAD of an event. -/
theorem test_witness_CommandInTheCompletingCycle :
    (Coherent (under (given (atCycle { gapping with txG := 1199 }) [0x4000000000000000]) .atComplete .hold .engine) ∧
      Coherent (given (atCycle { gapping with txG := 1199 }) [0x5000000000000000])) ∧
    Coherent (openEvent .on 1 [] (given (atCycle { gapping with txG := 1199 }) [0x3001000000000045])) ∧
    (gapping.ctlWait = .none ∧ gapping.evt = none ∧ gapping.txState = .gap ∧ (atCycle gapping).params.level = .cycle ∧
      1199 = (atCycle gapping).params.resetCycles - 1 ∧ gapping.params.tickBusyPolicy = .hold) ∧
    encode .refresh = 0x4000000000000000 ∧ encode .tick = 0x5000000000000000 ∧
    encode (.quad 1 0 0 0x45) = 0x3001000000000045 := by
  have hq : Coherent (given (atCycle { gapping with txG := 1199 }) [0x3001000000000045]) := coherentIf (by decide)
  obtain ⟨h1, h2, h3, h4, h5, h6, h7, h8, h9, h10, -, h12, -, h14⟩ := hq
  exact ⟨⟨coherentIf (by decide), coherentIf (by decide)⟩,
    ⟨h1, h2, h3, h4, h5, h6, h7, h8, h9, h10, (fun a ha => by cases ha; decide), h12, (fun hw => by cases hw), h14⟩,
    by decide⟩
/-- R148: the set wins under AT_COMPLETE, for a command of each kind that sets `dirty`. -/
theorem test_set_wins_in_completing_cycle :
    (nextOf (step (under (given (atCycle { gapping with txG := 1199, dirty := true }) [0x1000000000000012])
      .atComplete .hold .engine))).map (fun t => (t.busy, t.dirty)) = some (false, true) ∧
    (nextOf (step (under (given (atCycle { gapping with txG := 1199, dirty := true }) [0x6000000000000000])
      .atComplete .hold .engine))).map (fun t => (t.busy, t.dirty)) = some (false, false) := by decide

/-- The hypotheses of EveryStepKeepsTheInvariant and ParametersNeverChange. -/
theorem test_witness_EveryStepKeepsTheInvariant : Coherent gapping ∧ (nextOf (step gapping)).isSome = true :=
  ⟨coherentIf (by decide), by decide⟩
/-- The largest strip. -/
theorem test_witness_ResetMeetsTheInvariant : paramsOk { Params.default with capacity := 65536, level := .cycle } = true := by
  decide
theorem test_witness_FrameIsStableInFlight : sending.busy = true ∧ (nextOf (step sending)).isSome = true ∧
    sending.sched = [] := by decide
/-- A clear at the start and a clear at the end. -/
theorem test_witness_OnlyATransmissionClearsDirty :
    (Coherent (given { strip 1 with dirty := true } [0x6000000000000000]) ∧
      Coherent (under { gapping with dirty := true } .atComplete .hold .engine)) ∧
    (nextOf (step (given { strip 1 with dirty := true } [0x6000000000000000]))).map (·.dirty) = some false ∧
    (nextOf (step (under { gapping with dirty := true } .atComplete .hold .engine))).map (·.dirty) = some false :=
  ⟨⟨coherentIf (by decide), coherentIf (by decide)⟩, by decide⟩
/-- The engine in BITS on the last bit, and in the gap. -/
theorem test_witness_NoOverlapAndNoCancellation :
    Coherent { sending with txK := 23 } ∧
    (nextOf (step { sending with txK := 23 })).map (fun t => (t.txState, t.txK)) = some (.gap, 23) ∧
    (nextOf (step gapping)).map (·.txState) = some .idle :=
  ⟨coherentIf (by decide), by decide⟩
theorem test_witness_OnlyATickTogglesThePhase :
    (nextOf (step (given (tickBase 2) [0x5000000000000000]))).map (·.phase) = some .on ∧ (tickBase 2).phase = .off := by
  decide
/-- Each of the three commands that write records. -/
theorem test_witness_OnlyTheMapperWritesRecords :
    (nextOf (step (given (tickBase 2) [0x7000000000000000]))).map (·.led) = some [⟨0, 0⟩] ∧
    (nextOf (step (given (tickBase 2) [0x1000000000000023]))).map (·.led) = some [⟨2, 3⟩] ∧
    (nextOf (step (given (openEvent .on 1 [] (tickBase 2)) [0x3001000000000045]))).map (fun t => (t.led, t.evt)) =
      some ([⟨4, 5⟩], none) := by decide
/-- The first and the last key. -/
theorem test_witness_StoreReadsBackWhatTheEnvironmentWrote :
    Coherent { strip 1 with sched := [.setCfg .order 5] } ∧
    (nextOf (step { strip 1 with sched := [.setCfg .order 5] })).map (·.store) = some [(48, 5)] ∧
    (nextOf (step { tickBase 2 with sched := [.dropCfg (.colour 0 .r)] })).map (fun t => Memory.read t.store 0) =
      some none :=
  ⟨coherentIf (by decide), by decide⟩
/-- Either ground, the second at its bound. -/
theorem test_witness_BootResetRestoresTheResetState :
    ({ sending with sched := [.reset 0] } : State).sched = .reset 0 :: [] ∧ sending.params.level = .bit ∧
    (atCycle sending).params.resetCycles ≤ 1200 ∧
    (nextOf (step (atCycle { sending with sched := [.reset 1200] }))).isSome = true := by decide
theorem test_witness_ShortResetIsRefused : (atCycle sending).params.level = .cycle ∧
    1199 < (atCycle sending).params.resetCycles := by decide
theorem test_witness_ResetValues : 0 < Params.default.capacity := by decide
/-- A coherent state that is stuck with nothing left, and one stuck while the engine goes on. -/
theorem test_witness_StuckExactlyWhenQuadsNeverArrive :
    Coherent (openEvent .on 1 [] (strip 1)) ∧ Stuck (openEvent .on 1 [] (strip 1)) ∧
    (Stuck (openEvent .on 1 [] sending) ∧ (nextOf (step (openEvent .on 1 [] sending))).isSome = true) ∧
    faultOf (step (openEvent .on 1 [] (strip 1))) = some .stuck := by
  refine ⟨?_, by decide, by decide, by decide⟩
  obtain ⟨h1, h2, h3, h4, h5, h6, h7, h8, h9, h10, -, h12, -, h14⟩ := test_witness_coherent_idle
  exact ⟨h1, h2, h3, h4, h5, h6, h7, h8, h9, h10, (fun a ha => by cases ha; decide), h12, (fun hw => by cases hw), h14⟩
/-- Final with nothing left, and with moves left that present no word: a store write, an idle engine move, a reset. -/
theorem test_witness_FinalStateStandsStill : Final (strip 1) ∧ Coherent (strip 1) ∧
    Final { strip 1 with sched := [.setCfg .order 5, .engine, .reset 0] } ∧
    ¬ Final { strip 1 with sched := [.present 0x5000000000000000] } :=
  ⟨by decide, coherentIf (by decide), by decide, by decide⟩
theorem test_witness_FillSetsEveryRecord : Coherent (strip 8) ∧ Accepting (strip 8) := ⟨coherentIf (by decide), by decide⟩
theorem test_witness_NamedPairAssemblesBack : pairByte Params.default (.named 15 0) = some 0xF0 ∧
    pairByte { Params.default with pairLayout := .onLow } (.named 15 0) = some 0x0F := by decide

end Sys2Proof.Tests
end

