-- ==== Sys2Proof/Proofs/Scope.lean ====
section
/-! PROOFS. The scope (00_scope.md): instantiation and the constraints on the parameters. -/

namespace Sys2Proof.Machine

/-- The check of the parameters, constraint by constraint (R9, R10). -/
theorem paramsOk_iff (p : Params) :
    paramsOk p = true ↔
      1 ≤ p.capacity ∧ p.capacity ≤ 65536 ∧ 1 ≤ p.h0Cycles ∧ p.h0Cycles < p.h1Cycles ∧ p.h1Cycles < p.bitCycles ∧
      1 ≤ p.resetCycles ∧ 0 < p.fClk ∧ p.orderMap.length ≤ 256 ∧ p.cfgKeyMap.length = 49 ∧ p.cfgKeyMap.Nodup := by
  rw [paramsOk, decide_eq_true_iff]

/-- An instance is made only from checked parameters, and it is their reset state (R10, R164). -/
theorem instantiate_eq_some_iff (p : Params) (s : State) :
    instantiate p = some s ↔ paramsOk p = true ∧ s = State.resetWith p := by
  rw [instantiate, Option.ite_none_right_eq_some, Option.some_inj, eq_comm (a := s)]

/-- Settles O55: an instance is made exactly from checked parameters, and the check is R10's constraints. -/
theorem instantiationChecksTheParameters : Obligations.InstantiationChecksTheParameters := by
  unfold Obligations.InstantiationChecksTheParameters
  intro p s
  rw [instantiate_eq_some_iff, paramsOk_iff]

end Sys2Proof.Machine
end

