-- ==== Sys2Proof/Proofs/State.lean ====
section
/-! PROOFS. The state of the block (10_state.md): the invariant, the records and who writes them, reset. -/

namespace Sys2Proof.Machine

/-! ### The invariant -/

/-- Taking the move off the list keeps the invariant. -/
theorem Coherent.popMove {s : State} (h : Coherent s) : Coherent s.popMove :=
  h.environment s.port s.cfgFail s.sched.tail s.draws

/-- Every step keeps the invariant, agent by agent (R155): the controller, the engine, the environment's moves. -/
theorem Coherent.step {s t : State} (h : Coherent s) (hn : Machine.step s = .next t) : Coherent t := by
  have hp := h.popMove
  cases step_next hn with
  | controller hc => exact hp.controllerTurn hc
  | engine ht => exact ht ▸ hp.engineTurn
  | present w ht => exact ht ▸ h.environment (s.port ++ [w]) s.cfgFail s.sched.tail s.draws
  | setCfg key v ht => exact ht ▸ hp.withStore (Memory.write_wf (keyNum s.params key) v h.store)
  | dropCfg key ht => exact ht ▸ hp.withStore (Memory.erase_wf (keyNum s.params key) h.store)
  | failReads answers ht => exact ht ▸ h.environment s.port answers s.sched.tail s.draws
  | reset n ms hs ht => exact ht ▸ hp.bootReset
  | nothing ht => exact ht ▸ h

/-- Settles O43: whatever agent takes the step, it keeps the invariant. -/
theorem everyStepKeepsTheInvariant : Obligations.EveryStepKeepsTheInvariant := by
  unfold Obligations.EveryStepKeepsTheInvariant
  exact fun _ _ h hn => h.step hn

/-! ### Who writes the records -/

/-- From `s` to `t` the controller accepted a command that writes records: UPD, FRESET, or the QUAD that completes an
event (R21). -/
def MapperRan (s t : State) : Prop :=
  ∃ w ws i, s.port = w :: ws ∧ decode w = .instr i ∧ t.port = ws ∧
    (i = .freset ∨ (∃ b e pair, i = .upd b e pair) ∨
      ((∃ am b e pair, i = .quad am b e pair) ∧ s.evt.isSome = true ∧ t.evt = none))

/-- Only the port and the event before the step, and those after it, say whether the mapper ran. -/
theorem MapperRan.congr {s s' t t' : State} (h : MapperRan s t) (hs : s'.port = s.port) (he : s'.evt = s.evt)
    (ht : t'.port = t.port) (hf : t'.evt = t.evt) : MapperRan s' t' := by
  unfold MapperRan
  rw [hs, he, ht, hf]
  exact h

/-- The controller changes a record only by an accepted command of the mapper. -/
theorem mapperRan_of_controllerRun {s t : State} (h : controllerRun s = .next t) (hl : t.led ≠ s.led) :
    MapperRan s t := by
  rcases controllerRun_next h with rfl | ⟨w, ws, i, hp, hd, -, hx⟩
  · exact absurd rfl hl
  · rcases exec_next hx with rfl | ⟨-, -, rfl⟩
    · exact absurd rfl hl
    · exact ⟨w, ws, i, hp, hd, by simp [hp], effectOf_led hl⟩

/-- At cycle level the clock cycle around the command touches neither the records nor what tells the command. -/
theorem mapperRan_of_controllerTurn {s t : State} (h : controllerTurn s = .next t) (hl : t.led ≠ s.led) :
    MapperRan s t := by
  rcases controllerTurn_next h with ⟨-, hr⟩ | ⟨-, u, hr, rfl⟩
  · exact mapperRan_of_controllerRun hr hl
  · have hu : MapperRan (openCycle s) u := mapperRan_of_controllerRun hr (by simpa using hl)
    exact hu.congr (by simp) (by simp) (by simp) (by simp)

/-- Settles O50: the engine and the environment's moves leave the records alone, and the controller changes one only by
an accepted command of the mapper. -/
theorem onlyTheMapperWritesRecords : Obligations.OnlyTheMapperWritesRecords := by
  unfold Obligations.OnlyTheMapperWritesRecords
  intro s t hn hreset hl
  show MapperRan s t
  cases step_next hn with
  | controller hc => exact (mapperRan_of_controllerTurn hc hl).congr rfl rfl rfl rfl
  | engine ht =>
    obtain ⟨-, hled, -⟩ := engineTurn_frame s.popMove
    exact absurd (ht ▸ hled) hl
  | present w ht => exact absurd (by rw [ht]; rfl) hl
  | setCfg key v ht => exact absurd (by rw [ht]; rfl) hl
  | dropCfg key ht => exact absurd (by rw [ht]; rfl) hl
  | failReads answers ht => exact absurd (by rw [ht]; rfl) hl
  | reset n ms hs ht => exact absurd hs (hreset n ms)
  | nothing ht => exact absurd (by rw [ht]) hl

/-- Settles O20: with no wait and no open event FRESET is accepted, and its effect is a table of (0, 0) records. -/
theorem fresetClearsOnlyTheRecords : Obligations.FresetClearsOnlyTheRecords := by
  unfold Obligations.FresetClearsOnlyTheRecords
  intro s ⟨hw, he⟩
  refine ⟨_, exec_accepted (i := .freset) rfl rfl hw he, rfl, fun p => ?_⟩
  simp [effectOf, ← List.map_const']

/-! ### Reset -/

/-- The reset state of an instance with legal parameters meets the invariant (R37 to R43). -/
theorem Coherent.resetWith {p : Params} (h : paramsOk p = true) : Coherent (State.resetWith p) := by
  obtain ⟨hcap, -, hbit, hgap⟩ := paramsOk_bounds h
  exact {
    params := h
    led := List.length_replicate
    frame := drawFrame_length 0 p.capacity
    busy := by simp [State.resetWith]
    txK := by simp only [State.resetWith, Params.frameBits, bitsPerLed]; omega
    gapK := fun hc => by cases hc
    txC := Nat.zero_lt_of_lt hbit
    idleC := fun _ => rfl
    txG := hgap
    dout := fun _ => rfl
    evt := fun a ha => by cases ha
    wait := by simp [State.resetWith]
    waitEvt := fun _ => rfl
    store := List.Pairwise.nil }

/-- Settles O44: every legal instance by the bounds of R10, and the default one is legal. -/
theorem resetMeetsTheInvariant : Obligations.ResetMeetsTheInvariant := by
  unfold Obligations.ResetMeetsTheInvariant
  exact ⟨fun _ h => .resetWith h, .resetWith (by decide)⟩

/-- Settles O54: `State.resetWith` gives each row its value; the table and the frame have one entry a position. -/
theorem resetValues : Obligations.ResetValues := by
  unfold Obligations.ResetValues
  refine ⟨rfl, fun p => ⟨fun i hi => ?_, List.length_replicate, drawFrame_length 0 p.capacity,
    rfl, rfl, rfl, rfl, rfl, rfl, rfl, rfl, rfl, rfl, rfl⟩⟩
  exact List.getElem?_replicate_of_lt hi

end Sys2Proof.Machine
end

