-- ==== Sys2Proof/Proofs/Memory.lean ====
section
/-! PROOFS. Memory, access and ordering (20_memory.md): the configuration reads, the store behind them, the frame in flight. -/

namespace Sys2Proof.Machine

/-! ### One configuration read (R49, R91) -/

/-- A read the environment does not fail answers what the store holds. -/
theorem cfgAnswer_eq_read {r : Reads} (p : Params) (m : Memory) (key : CfgKey) (h : r.answers.headD false = false) :
    cfgAnswer p m key r = Memory.read m (keyNum p key) := by
  rw [cfgAnswer, h, if_neg Bool.false_ne_true]

/-- A read the environment fails answers nothing, whatever the store holds. -/
theorem cfgAnswer_eq_none {r : Reads} (p : Params) (m : Memory) (key : CfgKey) (h : r.answers.headD false = true) :
    cfgAnswer p m key r = none := by
  rw [cfgAnswer, h, if_pos rfl]

/-- An answered read gives the byte and takes no draw. -/
theorem cfgByte_of_answer {p : Params} {m : Memory} {key : CfgKey} {r : Reads} {v : Byte}
    (h : cfgAnswer p m key r = some v) : cfgByte p m key r = (v, ⟨r.answers.tail, r.draws⟩) := by
  rw [cfgByte, h]

/-- A read without an answer gives the next draw (R13). -/
theorem cfgByte_of_no_answer {p : Params} {m : Memory} {key : CfgKey} {r : Reads} (h : cfgAnswer p m key r = none) :
    cfgByte p m key r = (freeByte r.draws, ⟨r.answers.tail, r.draws + 1⟩) := by
  rw [cfgByte, h]

/-- Settles O24: past the environment's answer the read is the store's, and without a byte it is the next draw. -/
theorem failedReadIsAFreshDraw : Obligations.FailedReadIsAFreshDraw := by
  unfold Obligations.FailedReadIsAFreshDraw
  intro p m key as d
  have hgranted : cfgAnswer p m key ⟨false :: as, d⟩ = Memory.read m (keyNum p key) := cfgAnswer_eq_read p m key rfl
  have hpastEnd : cfgAnswer p m key ⟨[], d⟩ = Memory.read m (keyNum p key) := cfgAnswer_eq_read p m key rfl
  refine ⟨fun v hv => ?_, cfgByte_of_no_answer (cfgAnswer_eq_none p m key rfl), fun hn => ?_⟩
  · exact ⟨cfgByte_of_answer (hgranted.trans hv), cfgByte_of_answer (hpastEnd.trans hv)⟩
  · exact ⟨cfgByte_of_no_answer (hgranted.trans hn), cfgByte_of_no_answer (hpastEnd.trans hn)⟩

/-! ### The store key by key (R48, R158) -/

/-- Under legal parameters a byte stored under one key is read back there, and no other key is touched. -/
theorem read_write_key {p : Params} (hp : paramsOk p = true) (m : Memory) (key k : CfgKey) (v : Byte) :
    Memory.read (Memory.write m (keyNum p key) v) (keyNum p k) =
      if k = key then some v else Memory.read m (keyNum p k) := by
  split
  · next hk => rw [hk, Memory.read_write_same]
  · next hk => exact Memory.read_write_other m v fun h => hk (keyNum_injective hp h)

/-- Under legal parameters a dropped key has no byte, and no other key is touched. -/
theorem read_erase_key {p : Params} (hp : paramsOk p = true) {m : Memory} (hm : Memory.wf m) (key k : CfgKey) :
    Memory.read (Memory.erase m (keyNum p key)) (keyNum p k) =
      if k = key then none else Memory.read m (keyNum p k) := by
  split
  · next hk => rw [hk, Memory.read_erase_same _ hm]
  · next hk => exact Memory.read_erase_other m fun h => hk (keyNum_injective hp h)

/-- Settles O51: each of the two moves writes the store alone, under the one number of its key. -/
theorem storeReadsBackWhatTheEnvironmentWrote : Obligations.StoreReadsBackWhatTheEnvironmentWrote := by
  unfold Obligations.StoreReadsBackWhatTheEnvironmentWrote
  intro s key v ms hc
  exact ⟨fun hs => ⟨_, step_move hs, rfl, fun k => read_write_key hc.params s.store key k v⟩,
    fun hs => ⟨_, step_move hs, rfl, fun k => read_erase_key hc.params hc.store key k⟩⟩

/-! ### TICK under another key map and store (R48) -/

/-- The same block with other parameters and another store. -/
def State.withConfig (s : State) (p : Params) (m : Memory) : State := { s with params := p, store := m }

/-- A gated command whose effect commutes with the change of parameters and store still does so behind the gate. -/
theorem gate_withConfig {s t : State} {held : Bool} {run : State → State} {p : Params} {m : Memory}
    (hrun : run (s.accept.withConfig p m) = (run s.accept).withConfig p m) (h : s.gate held run = .next t) :
    (s.withConfig p m).gate held run = .next (t.withConfig p m) := by
  cases hw : s.ctlWait with
  | tx =>
    rw [gate_waiting held run hw] at h
    cases h
    exact gate_waiting held run hw
  | none =>
    cases he : s.evt with
    | some acc =>
      rw [gate_open held run hw (by rw [he]; rfl)] at h
      cases h
    | none =>
      cases held with
      | true =>
        rw [gate_held run hw he] at h
        cases h
        exact gate_held run hw he
      | false =>
        rw [gate_run run hw he] at h
        cases h
        exact (gate_run (s := s.withConfig p m) run hw he).trans (congrArg _ hrun)

/-- The pass sees the key map and the store only as the bytes under the keys. -/
theorem tickPass_withConfig {s : State} {p : Params} {m : Memory}
    (horder : ∀ v, orderOfByte p v = orderOfByte s.params v)
    (hread : ∀ key, Memory.read m (keyNum p key) = Memory.read s.store (keyNum s.params key)) :
    tickPass (s.withConfig p m) = (tickPass s).withConfig p m := by
  rw [tickPass_eq, tickPass_eq]
  simp only [State.withConfig, renderAll_congr horder hread]

/-- TICK's effect, with or without a transmission in flight, commutes with such a change of key map and store. -/
theorem effectOf_tick_withConfig {s : State} {p : Params} {m : Memory}
    (horder : ∀ v, orderOfByte p v = orderOfByte s.params v)
    (hread : ∀ key, Memory.read m (keyNum p key) = Memory.read s.store (keyNum s.params key)) :
    effectOf .tick (s.withConfig p m) = (effectOf .tick s).withConfig p m := by
  cases hb : s.busy with
  | true => simp [effectOf, State.withConfig, hb]
  | false => simpa [effectOf, State.withConfig, hb] using tickPass_withConfig horder hread

/-- Settles O30: TICK's gate reads neither the key map nor the store, and its effect reads them only through the keys. -/
theorem keyNumbersDoNotMatter : Obligations.KeyNumbersDoNotMatter := by
  unfold Obligations.KeyNumbersDoNotMatter
  rintro s s' t map m rfl hread h
  rw [exec_eq_gate rfl] at h ⊢
  exact gate_withConfig (effectOf_tick_withConfig (s := s.accept) (fun _ => rfl) hread) h

/-! ### The frame in flight (R56, R113, R114) -/

/-- While a transmission is in flight the controller's turn leaves the frame alone, at either level. -/
theorem controllerTurn_frame_of_busy {s t : State} (hb : s.busy = true) (h : controllerTurn s = .next t) :
    t.frame = s.frame := by
  rcases controllerTurn_next h with ⟨-, hr⟩ | ⟨-, u, hr, rfl⟩
  · obtain ⟨_, _, _, _, rfl, -⟩ := controllerRun_busy hb hr
    rfl
  · obtain ⟨_, _, _, _, rfl, -⟩ := controllerRun_busy ((openCycle_busy s).trans hb) hr
    exact (closeCycle_frame s _).trans (openCycle_frame s)

/-- Settles O46: of the agents only the controller writes the frame, and not while a transmission is in flight. -/
theorem frameIsStableInFlight : Obligations.FrameIsStableInFlight := by
  unfold Obligations.FrameIsStableInFlight
  intro s t hb hn hreset
  cases step_next hn with
  | controller hc => exact controllerTurn_frame_of_busy (s := s.popMove) hb hc
  | engine ht =>
    obtain ⟨hframe, -⟩ := engineTurn_frame s.popMove
    exact ht ▸ hframe
  | present w ht => rw [ht]; rfl
  | setCfg key v ht => rw [ht]; rfl
  | dropCfg key ht => rw [ht]; rfl
  | failReads answers ht => rw [ht]; rfl
  | reset n ms hs ht => exact absurd hs (hreset n ms)
  | nothing ht => rw [ht]

end Sys2Proof.Machine
end

