-- ==== Sys2Proof/Proofs/Encoding.lean ====
section
/-! PROOFS. The command port (30_encoding.md): the encoding and its table, the word a step takes, event reception, the
assembler's pairs and pseudo-commands. -/

namespace Sys2Proof

/-! ### The word and the command (R66 to R73) -/

/-- The fields of a command's word are the command's, and they decode to it. -/
theorem decode_encode (i : Instr) : decode (encode i) = .instr i := by
  rw [decode, encode, Fields.ofWord_toWord, Fields.decode_fields]

/-- A word is determined by its fields, and these are the command's. -/
theorem encode_of_decode {w : Word} {i : Instr} (h : decode w = .instr i) : encode i = w := by
  rw [encode, Fields.fields_of_decode h, Fields.toWord_ofWord]

/-- Settles O2: the two directions of `Fields` compose. -/
theorem decodeOfEncode : Obligations.DecodeOfEncode := by
  unfold Obligations.DecodeOfEncode
  exact decode_encode

/-- Settles O3: what decodes is the word of its own fields. -/
theorem encodeOfDecode : Obligations.EncodeOfDecode := by
  unfold Obligations.EncodeOfDecode
  exact fun _ _ => encode_of_decode

/-- A list of commands with their words decodes back (R83). -/
theorem decode_of_encoded {rows : List (Instr × Word)} (h : ∀ x ∈ rows, encode x.1 = x.2) :
    ∀ x ∈ rows, encode x.1 = x.2 ∧ decode x.2 = .instr x.1 :=
  fun x hx => ⟨h x hx, h x hx ▸ decode_encode x.1⟩

/-- Settles O1: the nine words are computed, and their decoding is the round trip. -/
theorem exampleWordsDecode : Obligations.ExampleWordsDecode := by
  unfold Obligations.ExampleWordsDecode
  exact decode_of_encoded (by decide)

/-! ### The opcode table (R69 to R77) -/

/-- A word is legal exactly when it matches a row of the table. -/
theorem decode_legal_iff (w : Word) : (∃ i, decode w = .instr i) ↔ ∃ r ∈ opRows, r.hit w = true := by
  have hrows := exists_hit_iff w fun _ => True
  simp only [and_true] at hrows
  rw [hrows]
  constructor
  · rintro ⟨i, hi⟩
    obtain ⟨x, hx, hmet, -⟩ := tableRows_of_decode hi
    exact ⟨x, hx, hmet⟩
  · exact decode_of_tableRows

/-- A row that a legal word matches is the row of its command. -/
theorem mnemonic_of_hit {w : Word} {i : Instr} {r : OpRow} (hd : decode w = .instr i) (hr : r ∈ opRows)
    (hhit : r.hit w = true) : r.mnemonic = i.mnemonic := by
  have hmem : (r.mnemonic, r.hit w) ∈ tableRows (Fields.ofWord w) := opRows_hits w ▸ List.mem_map_of_mem hr
  exact tableRows_unique hd hmem hhit

/-- Settles O4: the decoder and the table ask the same of the fields, row by row. -/
theorem decodeFollowsTheOpcodeTable : Obligations.DecodeFollowsTheOpcodeTable := by
  unfold Obligations.DecodeFollowsTheOpcodeTable
  exact ⟨decode_legal_iff, fun _ _ _ => mnemonic_of_hit⟩

/-- A word that matches no row is illegal (R76, R77). -/
theorem decode_illegal_of_no_hit {w : Word} (h : ∀ r ∈ opRows, r.hit w = false) : ∃ e, decode w = .illegal e := by
  cases hd : decode w with
  | instr i =>
    obtain ⟨r, hr, hhit⟩ := (decode_legal_iff w).1 ⟨i, hd⟩
    rw [h r hr] at hhit
    cases hhit
  | illegal e => exact ⟨e, rfl⟩

end Sys2Proof

namespace Sys2Proof.Machine

/-! ### The controller takes a word (R65, R142, R143) -/

/-- The controller refuses an illegal word at the head of the port, whether or not an event is open (R142). -/
theorem controllerRun_illegal {s : State} {w : Word} {ws : List Word} {e : DecodeError} (hw : s.ctlWait = .none)
    (hp : s.port = w :: ws) (hd : decode w = .illegal e) : controllerRun s = .refused (refusalOf e) := by
  simp [controllerRun, runWord, hw, hp, hd]

/-- At bit level the controller's turn is the command alone. -/
theorem controllerTurn_bit {s : State} (hl : s.params.level = .bit) : controllerTurn s = controllerRun s := by
  simp only [controllerTurn, hl]

/-- At cycle level the clock cycle closes around a command that answers a next state (R148). -/
theorem controllerTurn_cycle {s t : State} (hl : s.params.level = .cycle)
    (h : controllerRun (openCycle s) = .next t) : controllerTurn s = .next (closeCycle s t) := by
  rw [openCycle] at h
  simp only [controllerTurn, hl, h]

/-- At cycle level a refusal of the command is the turn's. -/
theorem controllerTurn_cycle_refused {s : State} {r : Refusal} (hl : s.params.level = .cycle)
    (h : controllerRun (openCycle s) = .refused r) : controllerTurn s = .refused r := by
  rw [openCycle] at h
  simp only [controllerTurn, hl, h]

/-- The controller's turn refuses an illegal word at either level. -/
theorem controllerTurn_illegal {s : State} {w : Word} {ws : List Word} {e : DecodeError} (hw : s.ctlWait = .none)
    (hp : s.port = w :: ws) (hd : decode w = .illegal e) : controllerTurn s = .refused (refusalOf e) := by
  cases hl : s.params.level with
  | bit => rw [controllerTurn_bit hl, controllerRun_illegal hw hp hd]
  | cycle =>
    have hp' : (openCycle s).port = w :: ws := (openCycle_port s).trans hp
    exact controllerTurn_cycle_refused hl (controllerRun_illegal ((openCycle_ctlWait s).trans hw) hp' hd)

/-- So does a chosen step of the controller. -/
theorem step_illegal {s : State} {ms : List Move} {w : Word} {ws : List Word} {e : DecodeError}
    (hs : s.sched = .controller :: ms) (hp : s.port = w :: ws) (hw : s.ctlWait = .none) (hd : decode w = .illegal e) :
    step s = .refused (refusalOf e) :=
  (step_move hs).trans (controllerTurn_illegal (s := { s with sched := ms }) hw hp hd)

/-- Settles O5: no branch of the decoder takes a reserved OP, and the controller refuses what is illegal. -/
theorem reservedOpcodeIsRefused : Obligations.ReservedOpcodeIsRefused := by
  unfold Obligations.ReservedOpcodeIsRefused
  intro w hop
  have hd : decode w = .illegal (.reservedOpcode (w.extractLsb' 60 4)) := Fields.decode_reserved hop
  exact ⟨hd, fun s ms ws hs hp hw => step_illegal hs hp hw hd⟩

/-- Settles O6: without a row the word is illegal, and with a legal OP the ground is the nonzero bit. -/
theorem nonzeroReservedBitIsRefused : Obligations.NonzeroReservedBitIsRefused := by
  unfold Obligations.NonzeroReservedBitIsRefused
  intro w h1 h7 hrows
  obtain ⟨e, hd⟩ := decode_illegal_of_no_hit hrows
  obtain rfl : e = .nonzeroField (w.extractLsb' 60 4) := Fields.decode_nonzero hd h1 h7
  exact ⟨hd, fun s ms ws hs hp hw => step_illegal hs hp hw hd⟩

/-- At bit level a chosen controller step is the command at the head of the port. -/
theorem step_controller_bit {s : State} {ms : List Move} {w : Word} {ws : List Word} {i : Instr}
    (hs : s.sched = .controller :: ms) (hp : s.port = w :: ws) (hd : decode w = .instr i)
    (hl : s.params.level = .bit) : step s = exec i { s with sched := ms } :=
  calc step s = controllerTurn { s with sched := ms } := step_move hs
    _ = controllerRun { s with sched := ms } := controllerTurn_bit hl
    _ = exec i { s with sched := ms } := controllerRun_head hp hd

/-- At cycle level the clock cycle stands around the command (R148). -/
theorem step_controller_cycle {s t : State} {ms : List Move} {w : Word} {ws : List Word} {i : Instr}
    (hs : s.sched = .controller :: ms) (hp : s.port = w :: ws) (hd : decode w = .instr i)
    (hl : s.params.level = .cycle) (hx : exec i (openCycle { s with sched := ms }) = .next t) :
    step s = .next (closeCycle s t) := by
  have hp' : (openCycle { s with sched := ms }).port = w :: ws := (openCycle_port _).trans hp
  exact (step_move hs).trans (controllerTurn_cycle hl ((controllerRun_head hp' hd).trans hx))

/-- The controller is ready for a legal word unless it waits or the word is a held TICK (R143). -/
theorem controllerReady_of_not_held {s : State} {w : Word} {ws : List Word} {i : Instr} (hw : s.ctlWait = .none)
    (hp : s.port = w :: ws) (hd : decode w = .instr i)
    (hheld : i = .tick → s.busy = true → s.params.tickBusyPolicy = .skip ∨ s.evt.isSome = true) :
    controllerReady s = true := by
  by_cases hi : i = .tick
  · subst hi
    rw [controllerReady_tick hw hp hd, tickHeld]
    cases hb : s.busy with
    | false => simp
    | true => rcases hheld rfl hb with h | h <;> simp [h]
  · refine controllerReady_other hw hp fun htick => hi ?_
    exact Decoded.instr.inj (hd.symm.trans htick)

/-- With no move chosen the default policy runs a word the controller is ready for (log 4). -/
theorem step_auto_bit {s : State} {w : Word} {ws : List Word} {i : Instr} (hs : s.sched = []) (hp : s.port = w :: ws)
    (hd : decode w = .instr i) (hl : s.params.level = .bit) (hr : controllerReady s = true) : step s = exec i s :=
  calc step s = autoStep s := step_auto hs
    _ = controllerTurn s := by rw [autoStep, if_pos hr]
    _ = controllerRun s := controllerTurn_bit hl
    _ = exec i s := controllerRun_head hp hd

/-- A number that the table word decoder takes is a command word that decodes. -/
theorem decode_of_decodeTableWord {n w : Nat} {i : Instr} (h : decodeTableWord n w = some i) :
    decode (BitVec.ofNat 64 (w % 2 ^ n)) = .instr i := by
  rw [decodeTableWord, Option.ite_none_right_eq_some] at h
  obtain ⟨-, h⟩ := h
  cases hd : decode (BitVec.ofNat 64 (w % 2 ^ n)) with
  | instr j => rw [hd] at h; exact congrArg _ (Option.some.inj h)
  | illegal e => rw [hd] at h; cases h

/-- Settles O7: chosen at either level, by the default policy, and placed first by `withFetchWord`. -/
theorem stepRunsTheWordAtThePort : Obligations.StepRunsTheWordAtThePort := by
  unfold Obligations.StepRunsTheWordAtThePort
  refine ⟨fun s ms w ws i hs hp hd hl => ?chosenBit, fun s t ms w ws i hs hp hd hl hx => ?chosenCycle,
    fun s w ws i hs hp hd hl hw hheld => ?auto, fun s w i hlt hd hl => ?placed⟩
  case chosenBit => exact step_controller_bit hs hp hd hl
  case chosenCycle => exact step_controller_cycle hs hp hd hl hx
  case auto => exact step_auto_bit hs hp hd hl (controllerReady_of_not_held hw hp hd hheld)
  case placed =>
    have hword := decode_of_decodeTableWord hd
    rw [State.withFetchWord, step_controller_bit (s := presentFirst s 64 w) rfl rfl hword hl, presentFirst,
      Nat.mod_eq_of_lt hlt]

/-! ### Words in and out of sequence (R75, R78) -/

/-- A QUAD outside an event is out of sequence (R78). -/
theorem exec_quad_stray {am : Byte} {b e : Pos} {pair : Byte} {s : State} (hw : s.ctlWait = .none)
    (he : s.evt = none) : exec (.quad am b e pair) s = .refused .strayQuad := by
  simp [exec, execQuad, hw, he]

/-- Every command but QUAD is out of sequence inside an event (R78). -/
theorem exec_interrupts {i : Instr} {s : State} (hq : isQuad i = false) (hw : s.ctlWait = .none)
    (he : s.evt.isSome = true) : exec i s = .refused .eventInterrupted := by
  rw [exec_eq_gate hq, gate_open _ _ hw he]

/-- The QUAD constructor is what `isQuad` tells. -/
theorem isQuad_eq_false {i : Instr} (h : ∀ am b e pair, i ≠ .quad am b e pair) : isQuad i = false := by
  cases i with
  | quad am b e pair => exact absurd rfl (h am b e pair)
  | _ => rfl

/-- Settles O9: QUAD's own check of the event, and the gate of every other command. -/
theorem sequenceErrorsAreRefused : Obligations.SequenceErrorsAreRefused := by
  unfold Obligations.SequenceErrorsAreRefused
  exact ⟨fun _ _ _ _ _ hw he => exec_quad_stray hw he,
    fun _ _ hw he hi => exec_interrupts (isQuad_eq_false hi) hw he⟩

/-- A quadruple that is not the last expected joins the event (R75). -/
theorem receiveQuad_more {acc : EvtAcc} (q : Quad) (t : State) (h : 2 ≤ acc.expected) :
    receiveQuad acc q t = t.setEvt (some ⟨acc.pol, acc.expected - 1, acc.quads ++ [q]⟩) := by
  rw [receiveQuad, if_neg (by omega)]

/-- The last quadruple expected applies the event (R75). -/
theorem receiveQuad_last {acc : EvtAcc} (q : Quad) (t : State) (h : acc.expected ≤ 1) :
    receiveQuad acc q t = applyEvent acc.pol (acc.quads ++ [q]) (t.setEvt none) := by
  rw [receiveQuad, if_pos h]

/-- Settles O16: the QUAD is accepted, and with more to come it only joins the event. -/
theorem quadIsReceivedInOrder : Obligations.QuadIsReceivedInOrder := by
  unfold Obligations.QuadIsReceivedInOrder
  intro am b e pair acc s hw he hexp
  rw [exec_quad_accepted hw he, receiveQuad_more _ _ hexp]
  rfl

/-! ### Reception of an event (R75, R103) -/

/-- The command word that carries a quadruple (R72). -/
def Quad.word (q : Quad) : Word := encode (.quad q.am q.s q.e q.pair)

/-- The state with these words and these moves still to come. -/
def State.toCome (s : State) (ws : List Word) (ms : List Move) : State := { s with port := ws, sched := ms }

/-- Accepting a word in a chosen move uses up the two. -/
theorem accept_toCome {s : State} {w : Word} {ws : List Word} (ms : List Move) (hp : s.port = w :: ws) :
    State.accept { s with sched := ms } = s.toCome ws ms := by
  simp [State.accept, State.toCome, hp]

/-- The bit-level step of an EVT header the controller accepts. -/
theorem step_evt_accepted {s : State} {ms : List Move} {ws : List Word} {evop k : Byte}
    (hs : s.sched = .controller :: ms) (hp : s.port = encode (.evt evop k) :: ws) (hl : s.params.level = .bit)
    (ha : Accepting s) : step s = .next (effectOf (.evt evop k) (s.toCome ws ms)) := by
  rw [step_controller_bit hs hp (decode_encode _) hl, ← accept_toCome ms hp]
  exact exec_accepted rfl rfl ha.1 ha.2

/-- The bit-level step of a QUAD inside an event. -/
theorem step_quad_accepted {s : State} {ms : List Move} {ws : List Word} {q : Quad} {acc : EvtAcc}
    (hs : s.sched = .controller :: ms) (hp : s.port = q.word :: ws) (hl : s.params.level = .bit)
    (hw : s.ctlWait = .none) (he : s.evt = some acc) :
    step s = .next (receiveQuad acc q (s.toCome ws ms)) := by
  rw [step_controller_bit hs hp (decode_encode _) hl, ← accept_toCome ms hp]
  exact exec_quad_accepted hw he

/-- A whole event stands on the port, its header first, with a controller turn chosen for each of its words, and the
controller can take the header. -/
structure EventPresented (evop k : Byte) (qs : List Quad) (ws : List Word) (ms : List Move) (s : State) : Prop where
  accepting : Accepting s
  level : s.params.level = .bit
  count : qs.length = k.toNat
  port : s.port = encode (.evt evop k) :: qs.map Quad.word ++ ws
  sched : s.sched = List.replicate (k.toNat + 1) .controller ++ ms

/-- The state with the header and the first `m` of the event's quadruples taken. -/
def receivedState (evop k : Byte) (qs : List Quad) (ws : List Word) (ms : List Move) (s : State) (m : Nat) : State :=
  (s.toCome ((qs.drop m).map Quad.word ++ ws) (List.replicate (k.toNat - m) .controller ++ ms)).setEvt
    (some ⟨polarity evop, k.toNat - m, qs.take m⟩)

/-- The state with the whole event taken and applied. -/
def appliedState (evop : Byte) (qs : List Quad) (ws : List Word) (ms : List Move) (s : State) : State :=
  applyEvent (polarity evop) qs (s.toCome ws ms)

section
variable {evop k : Byte} {qs : List Quad} {ws : List Word} {ms : List Move} {s : State}

/-- The step of the header. -/
theorem EventPresented.step_header (h : EventPresented evop k qs ws ms s) :
    step s = .next (effectOf (.evt evop k)
      (s.toCome (qs.map Quad.word ++ ws) (List.replicate k.toNat .controller ++ ms))) :=
  step_evt_accepted h.sched h.port h.level h.accepting

/-- A header that announces quadruples opens the event. -/
theorem EventPresented.step_header_opens (h : EventPresented evop k qs ws ms s) (hk : 0 < k.toNat) :
    step s = .next (receivedState evop k qs ws ms s 0) := by
  rw [h.step_header, effectOf, if_neg (by omega)]
  rfl

/-- A header that announces none applies the empty event. -/
theorem EventPresented.step_header_empty (h : EventPresented evop k qs ws ms s) (hk : k.toNat = 0) :
    step s = .next (appliedState evop qs ws ms s) := by
  obtain rfl : qs = [] := List.eq_nil_of_length_eq_zero (h.count.trans hk)
  rw [h.step_header, effectOf, if_pos hk, hk]
  rfl

/-- The step of the quadruple that comes after the first `m`. -/
theorem EventPresented.step_quad (h : EventPresented evop k qs ws ms s) {m : Nat} (hm : m < qs.length) :
    step (receivedState evop k qs ws ms s m) = .next
      (receiveQuad ⟨polarity evop, k.toNat - m, qs.take m⟩ qs[m]
        ((receivedState evop k qs ws ms s m).toCome ((qs.drop (m + 1)).map Quad.word ++ ws)
          (List.replicate (k.toNat - (m + 1)) .controller ++ ms))) := by
  have hleft : k.toNat - m = k.toNat - (m + 1) + 1 := by have := h.count; omega
  refine step_quad_accepted ?sched ?port h.level h.accepting.1 rfl
  case sched =>
    show List.replicate (k.toNat - m) Move.controller ++ ms = _
    rw [hleft, List.replicate_succ, List.cons_append]
  case port =>
    show (qs.drop m).map Quad.word ++ ws = _
    rw [List.drop_eq_getElem_cons hm, List.map_cons, List.cons_append]

/-- Every quadruple but the last leaves the event open. -/
theorem EventPresented.step_quad_more (h : EventPresented evop k qs ws ms s) {m : Nat} (hm : m + 1 < k.toNat) :
    step (receivedState evop k qs ws ms s m) = .next (receivedState evop k qs ws ms s (m + 1)) := by
  have hlen : m < qs.length := by have := h.count; omega
  rw [h.step_quad hlen, receiveQuad_more _ _ (show 2 ≤ k.toNat - m by omega), ← List.take_succ_eq_append_getElem hlen]
  rfl

/-- The last quadruple applies the event. -/
theorem EventPresented.step_quad_last (h : EventPresented evop k qs ws ms s) {m : Nat} (hm : m + 1 = k.toNat) :
    step (receivedState evop k qs ws ms s m) = .next (appliedState evop qs ws ms s) := by
  have hlen : m + 1 = qs.length := hm.trans h.count.symm
  have hall : qs.take m ++ [qs[m]] = qs := by rw [← List.take_succ_eq_append_getElem, hlen, List.take_length]
  rw [h.step_quad (by omega), receiveQuad_last _ _ (show k.toNat - m ≤ 1 by omega), hall, ← hm, hlen, List.drop_length,
    Nat.sub_self]
  simp [receivedState, appliedState, State.setEvt, State.toCome, h.accepting.2]

/-- Until its last word is taken the event is only received. -/
theorem EventPresented.run_received (h : EventPresented evop k qs ws ms s) {m : Nat} (hm : m < k.toNat) :
    Host.Core.run Sys2Proof.core (m + 1) s = .next (receivedState evop k qs ws ms s m) := by
  induction m with
  | zero => exact run_one (h.step_header_opens hm)
  | succ m ih => rw [run_add (ih (by omega)), run_one (h.step_quad_more hm)]

/-- Its last word applies the event, whether that is the header or a QUAD. -/
theorem EventPresented.run_applied (h : EventPresented evop k qs ws ms s) :
    Host.Core.run Sys2Proof.core (k.toNat + 1) s = .next (appliedState evop qs ws ms s) := by
  cases hk : k.toNat with
  | zero => exact run_one (h.step_header_empty hk)
  | succ m => rw [run_add (h.run_received (by omega)), run_one (h.step_quad_last hk.symm)]

end

/-- Settles O18: the words before the last only fill the accumulator, and the last applies the whole event. -/
theorem eventIsAllOrNothing : Obligations.EventIsAllOrNothing := by
  unfold Obligations.EventIsAllOrNothing
  intro evop k qs ws ms s hacc hl hlen hp hs
  have h : EventPresented evop k qs ws ms s := ⟨hacc, hl, hlen, hp, hs⟩
  refine ⟨fun n hn => ?_, _, h.run_applied, applyEvent_eq .., fun p => ?_⟩
  · cases n with
    | zero => exact ⟨s, rfl, rfl, rfl, rfl, rfl, rfl, fun h0 => absurd rfl h0⟩
    | succ m =>
      refine ⟨_, h.run_received (by omega), rfl, rfl, rfl, rfl, rfl, fun _ => ?_⟩
      rw [Nat.add_sub_add_right]
      rfl
  · exact applyEvent_getElem? ..

/-! ### The assembler (R81, R82) -/

/-- A range that holds every position of the table overwrites every record. -/
theorem setRange_all {lo hi : Nat} (v : LedRec) (p : Nat) (l : List LedRec) (hlo : lo ≤ p)
    (hhi : p + l.length ≤ hi + 1) : setRange lo hi v p l = List.replicate l.length v := by
  induction l generalizing p with
  | nil => rfl
  | cons r l ih =>
    rw [List.length_cons] at hhi
    rw [setRange, if_pos (by omega), ih (p + 1) (by omega) (by omega), List.length_cons, List.replicate_succ]

/-- A byte's own number fits its operand. -/
theorem fitOperand_toNat {w : Nat} (b : BitVec w) : fitOperand w b.toNat = some b := by
  rw [fitOperand, if_pos b.isLt, BitVec.ofNat_toNat, BitVec.setWidth_eq]

/-- The largest position clamps to the last one (R98). -/
theorem clamp_max {p : Params} (h : paramsOk p = true) : clamp p 0xFFFF = p.capacity - 1 := by
  obtain ⟨-, hcap, -⟩ := (paramsOk_iff p).1 h
  show min 65535 (p.capacity - 1) = _
  omega

/-- Settles O58: the two expansions, and a range from 0 to the last position holds the whole table. -/
theorem fillSetsEveryRecord : Obligations.FillSetsEveryRecord := by
  unfold Obligations.FillSetsEveryRecord
  refine ⟨fun p pair => ?_, fun _ => rfl, fun s pair hc ⟨hw, he⟩ => ?_⟩
  · simp [assembleLine, pairByte, fitOperand_toNat]
  · obtain ⟨hcap, -⟩ := paramsOk_bounds hc.params
    have hled : setRange 0 (clamp s.params 0xFFFF) (decodePair s.params.pairLayout pair) 0 s.led =
        List.replicate s.params.capacity (decodePair s.params.pairLayout pair) := by
      have hlen := hc.led
      rw [clamp_max hc.params, setRange_all _ _ _ (Nat.le_refl 0) (by omega), hlen]
    rw [exec_accepted (i := .upd 0 0xFFFF pair) rfl rfl hw he, ← hled]
    rfl

/-- The high nibble of a byte written by its nibbles. -/
theorem highNibble_ofNat {x y : Nat} (hx : x ≤ 15) (hy : y ≤ 15) :
    ((BitVec.ofNat 8 (16 * x + y)).extractLsb' 4 4).toNat = x := by
  rw [BitVec.extractLsb'_toNat, BitVec.toNat_ofNat, Nat.shiftRight_eq_div_pow]
  omega

/-- The low nibble of a byte written by its nibbles. -/
theorem lowNibble_ofNat (x : Nat) {y : Nat} (hy : y ≤ 15) :
    ((BitVec.ofNat 8 (16 * x + y)).extractLsb' 0 4).toNat = y := by
  rw [BitVec.extractLsb'_toNat, BitVec.toNat_ofNat, Nat.shiftRight_zero]
  omega

/-- Settles O59: under either layout each field is written to the nibble it is read from. -/
theorem namedPairAssemblesBack : Obligations.NamedPairAssemblesBack := by
  unfold Obligations.NamedPairAssemblesBack
  intro p x y hx hy
  cases hl : p.pairLayout with
  | onHigh =>
    exact ⟨BitVec.ofNat 8 (16 * x + y), by simp [pairByte, hx, hy, hl], highNibble_ofNat hx hy, lowNibble_ofNat x hy⟩
  | onLow =>
    exact ⟨BitVec.ofNat 8 (16 * y + x), by simp [pairByte, hx, hy, hl], lowNibble_ofNat y hx, highNibble_ofNat hy hx⟩

end Sys2Proof.Machine
end

