-- ==== Sys2Proof/Proofs/PaletteStore.lean ====
section
/-! PROOFS. PaletteStore (41_palette_store.md): the channel orders, the order of a stored byte, what TICK renders with. -/

namespace Sys2Proof.Machine

/-! ### The channel orders (R88, R89, R95) -/

/-- A colour permuted by an order, its three bytes taken as a colour again and permuted by the order's inverse, is the
colour: the inverse of R88's table is the inverse of the bijection. -/
theorem permute_orderInverse (o : ChannelOrder) (t : Colour3) :
    permute (orderInverse o) ⟨(permute o t).b0, (permute o t).b1, (permute o t).b2⟩ = ⟨t.r, t.g, t.b⟩ := by
  cases o <;> rfl

/-- Settles O22: the inverse order by order; the slots and the table's inverses are R88's rows as the model lists them. -/
theorem ordersAreBijections : Obligations.OrdersAreBijections := by
  unfold Obligations.OrdersAreBijections
  exact ⟨permute_orderInverse, fun _ => ⟨rfl, rfl, rfl, rfl, rfl, rfl⟩, rfl, rfl, rfl, rfl, rfl, rfl⟩

/-! ### The order of a stored byte (R87, R90) -/

/-- A byte within the listed map names the order listed for it. -/
theorem orderOfByte_of_getElem? {p : Params} {v : Byte} {o : ChannelOrder} (h : p.orderMap[v.toNat]? = some o) :
    orderOfByte p v = o := by
  rw [orderOfByte, h, Option.getD_some]

/-- A byte past the end of the listed map names DEFAULT_ORDER. -/
theorem orderOfByte_of_length_le {p : Params} {v : Byte} (h : p.orderMap.length ≤ v.toNat) :
    orderOfByte p v = p.defaultOrder := by
  rw [orderOfByte, List.getElem?_eq_none h, Option.getD_none]

/-- Settles O23: bytes 0 to 5 are the six places of the default map, and every other byte is past its end. -/
theorem defaultOrderMap : Obligations.DefaultOrderMap := by
  unfold Obligations.DefaultOrderMap
  refine ⟨rfl, fun p v hmap => ?_⟩
  split_ifs
  case neg =>
    have hpast : 6 ≤ v.toNat := by bv_omega
    exact orderOfByte_of_length_le (by rw [hmap]; exact hpast)
  all_goals
    subst v
    exact orderOfByte_of_getElem? (by rw [hmap]; rfl)

/-! ### What TICK renders with (R85, R86, R92, R111, R112) -/

/-- The phase a TICK enters. -/
theorem togglePhase_eq (ph : Phase) : togglePhase ph = if ph = .on then .off else .on := by
  cases ph <;> rfl

/-- The index of a record that the phase a TICK enters selects (R111). -/
theorem selectIndex_togglePhase (ph : Phase) (r : LedRec) :
    selectIndex (togglePhase ph) r = if ph = .on then r.off else r.on := by
  cases ph <;> rfl

/-- With no transmission in flight an accepted TICK is its pass (R112). -/
theorem exec_tick_of_idle {s : State} (hs : Accepting s) (hb : s.busy = false) :
    exec .tick s = .next (tickPass s.accept) := by
  obtain ⟨hw, he⟩ := hs
  have hnotHeld : heldOf .tick s = false := by simp [heldOf, tickHeld, hb]
  rw [exec_accepted rfl hnotHeld hw he, effectOf, accept_busy, hb, if_neg Bool.false_ne_true]

/-- A pass whose reads all succeed uses up neither an answer nor a draw, and its frame is a map over the records. -/
theorem tickPass_of_storeHolds {s : State} {v : CfgKey → Byte} (h : StoreHolds s v) :
    tickPass s =
      { s with
        phase := togglePhase s.phase, dirty := true,
        frame := s.led.map fun r =>
          permute (orderOfByte s.params (v .order))
            ⟨v (.colour (selectIndex (togglePhase s.phase) r) .r), v (.colour (selectIndex (togglePhase s.phase) r) .g),
              v (.colour (selectIndex (togglePhase s.phase) r) .b)⟩ } := by
  obtain ⟨hanswers, hread⟩ := h
  rw [tickPass_eq, hanswers, renderAll_ok _ _ _ hread, ← hanswers]

/-- Settles O26: TICK is accepted, its pass is a map over the records, and each record gives the new phase's index. -/
theorem tickRendersTheNewPhase : Obligations.TickRendersTheNewPhase := by
  unfold Obligations.TickRendersTheNewPhase
  intro s v hs hb hv
  have haccept : StoreHolds s.accept v := hv
  rw [exec_tick_of_idle hs hb, tickPass_of_storeHolds haccept]
  simp only [selectIndex_togglePhase]
  rw [togglePhase_eq]
  rfl

end Sys2Proof.Machine
end

