-- ==== Sys2Proof/Proofs/EventMapper.lean ====
section
/-! PROOFS. EventToRangeMapper (42_event_mapper.md): the operands' fields, range updates, events. -/

namespace Sys2Proof.Machine

/-! ### Pair bytes, event opcodes and action masks (R97, R101, R102) -/

/-- The high nibble of a byte, in arithmetic. -/
theorem highNibble_toNat (b : Byte) : (b.extractLsb' 4 4).toNat = b.toNat / 16 := by
  rw [BitVec.extractLsb'_toNat, Nat.shiftRight_eq_div_pow]
  omega

/-- The low nibble of a byte, in arithmetic. -/
theorem lowNibble_toNat (b : Byte) : (b.extractLsb' 0 4).toNat = b.toNat % 16 := by
  rw [BitVec.extractLsb'_toNat, Nat.shiftRight_zero]

/-- Settles O11: each layout reads its two fields from the two nibbles. -/
theorem pairByteFields : Obligations.PairByteFields := by
  unfold Obligations.PairByteFields
  exact fun b => ⟨highNibble_toNat b, lowNibble_toNat b, lowNibble_toNat b, highNibble_toNat b⟩

/-- An even opcode is an ON event, an odd one an OFF event (R101). -/
theorem polarity_eq (evop : Byte) : polarity evop = if evop.toNat % 2 = 0 then .on else .off := by
  rw [polarity, BitVec.getLsbD, Nat.testBit_zero]
  rcases Nat.mod_two_eq_zero_or_one evop.toNat with h | h <;> simp [h]

/-- Bytes that agree modulo 4 agree in their bits 1:0. -/
theorem getLsbD_congr_of_mod_four {x y : Byte} {i : Nat} (h : x.toNat % 4 = y.toNat % 4) (hi : i < 2) :
    x.getLsbD i = y.getLsbD i := by
  have hbit : (x.toNat % 2 ^ 2).testBit i = (y.toNat % 2 ^ 2).testBit i := congrArg (Nat.testBit · i) h
  simpa only [Nat.testBit_mod_two_pow, hi, decide_true, Bool.true_and, BitVec.testBit_toNat] using hbit

/-- Bits 7:2 of an action mask have no part in the match (R102, D8). -/
theorem amMatches_congr {am am' : Byte} (pol : Polarity) (h : am.toNat % 4 = am'.toNat % 4) :
    amMatches pol am = amMatches pol am' := by
  cases pol with
  | on => exact getLsbD_congr_of_mod_four h (by decide)
  | off => exact getLsbD_congr_of_mod_four h (by decide)

/-! ### UPD (R98 to R100, R107 to R109) -/

/-- An accepted UPD is its range update. -/
theorem exec_upd_of_accepting {s : State} (b e : Pos) (pair : Byte) (hs : Accepting s) :
    exec (.upd b e pair) s = .next (updateRange s.accept b e pair) :=
  exec_accepted rfl rfl hs.1 hs.2

/-- An empty range sets `dirty` and nothing else (R99). -/
theorem updateRange_of_empty {st : State} {b e : Pos} (pair : Byte) (h : clamp st.params e < b.toNat) :
    updateRange st b e pair = st.setDirty := by
  rw [updateRange_eq, setRange_empty _ _ _ h]
  rfl

/-- Settles O12: UPD is accepted, and its range update is known record by record. -/
theorem updOverwritesTheClampedRange : Obligations.UpdOverwritesTheClampedRange := by
  unfold Obligations.UpdOverwritesTheClampedRange
  intro b e pair s hs
  exact ⟨_, exec_upd_of_accepting b e pair hs, updateRange_eq .., setRange_length ..,
    updateRange_getElem? s.accept b e pair⟩

/-- Settles O13: UPD is accepted, and its range update is that of an empty range. -/
theorem emptyRangeOnlySetsDirty : Obligations.EmptyRangeOnlySetsDirty := by
  unfold Obligations.EmptyRangeOnlySetsDirty
  intro b e pair s hs hempty
  rw [exec_upd_of_accepting b e pair hs, updateRange_of_empty (st := s.accept) pair hempty]
  rfl

/-- Settles O14: the first UPD leaves the block accepting, and the second overwrites what the first has left. -/
theorem laterUpdateWins : Obligations.LaterUpdateWins := by
  unfold Obligations.LaterUpdateWins
  intro b e b' e' pair pair' s hs
  have hnext : Accepting (updateRange s.accept b e pair) := hs
  refine ⟨_, _, exec_upd_of_accepting b e pair hs, exec_upd_of_accepting b' e' pair' hnext, rfl, rfl, fun p => ?_⟩
  rw [updateRange_getElem?, accept_led, updateRange_getElem?, Option.map_map]
  rfl

/-! ### Events (R75, R101 to R104, R109) -/

/-- Settles O15: the header is accepted; it applies the empty event or opens the event of its polarity. -/
theorem evtHeaderOpensTheEvent : Obligations.EvtHeaderOpensTheEvent := by
  unfold Obligations.EvtHeaderOpensTheEvent
  intro evop k s hs
  rw [exec_accepted (i := .evt evop k) rfl rfl hs.1 hs.2, effectOf, polarity_eq]
  by_cases hk : k = 0
  · subst hk
    rfl
  · have hk' : k.toNat ≠ 0 := fun h => hk (BitVec.eq_of_toNat_eq h)
    rw [if_neg hk, if_neg hk']
    rfl

/-- Settles O17: the QUAD is accepted and applies the event, whose quadruples are known record by record. -/
theorem lastQuadAppliesTheEvent : Obligations.LastQuadAppliesTheEvent := by
  unfold Obligations.LastQuadAppliesTheEvent
  intro am b e pair acc s hw he hexp
  have hrun : exec (.quad am b e pair) s =
      .next (applyEvent acc.pol (acc.quads ++ [⟨am, b, e, pair⟩]) (s.accept.setEvt none)) := by
    rw [exec_quad_accepted hw he, receiveQuad_last _ _ hexp.le]
  exact ⟨_, hrun, applyEvent_eq .., applyEvent_getElem? acc.pol _ _⟩

/-- Settles O19: EVT.FAIL is accepted and has no effect. -/
theorem failedEventHasNoEffect : Obligations.FailedEventHasNoEffect := by
  unfold Obligations.FailedEventHasNoEffect
  intro evop s ⟨hw, he⟩
  exact exec_accepted (i := .evtFail evop) rfl rfl hw he

/-! ### Ignored bits (D7, D8) -/

/-- A header runs the same under every opcode of its polarity, accepted or not. -/
theorem exec_evt_congr {evop evop' : Byte} (k : Byte) (s : State) (h : polarity evop = polarity evop') :
    exec (.evt evop k) s = exec (.evt evop' k) s := by
  have heffect : effectOf (.evt evop k) = effectOf (.evt evop' k) := by
    funext t
    rw [effectOf, effectOf, h]
  rw [exec_eq_gate rfl, exec_eq_gate rfl, heffect]
  rfl

/-- A quadruple is applied alike under every mask that matches alike. -/
theorem applyQuad_congr {pol : Polarity} {am am' : Byte} (st : State) (b e : Pos) (pair : Byte)
    (h : amMatches pol am = amMatches pol am') :
    applyQuad pol st ⟨am, b, e, pair⟩ = applyQuad pol st ⟨am', b, e, pair⟩ := by
  rw [applyQuad, applyQuad, h]

/-- The last quadruple of an event is applied after all the others (R103). -/
theorem applyEvent_concat (pol : Polarity) (qs : List Quad) (q : Quad) (st : State) :
    applyEvent pol (qs ++ [q]) st = (applyQuad pol (qs.foldl (applyQuad pol) st) q).setDirty := by
  rw [applyEvent, List.foldl_concat]

/-- The last quadruple expected has the same effect under every mask that matches alike. -/
theorem receiveQuad_last_congr {acc : EvtAcc} {am am' : Byte} (b e : Pos) (pair : Byte) (t : State)
    (hexp : acc.expected ≤ 1) (h : amMatches acc.pol am = amMatches acc.pol am') :
    receiveQuad acc ⟨am, b, e, pair⟩ t = receiveQuad acc ⟨am', b, e, pair⟩ t := by
  rw [receiveQuad_last _ _ hexp, receiveQuad_last _ _ hexp, applyEvent_concat, applyEvent_concat,
    applyQuad_congr _ _ _ _ h]

/-- Settles O21: an opcode counts only through its polarity and a mask only through its match; a waiting controller
takes neither word. -/
theorem ignoredBitsHaveNoEffect : Obligations.IgnoredBitsHaveNoEffect := by
  unfold Obligations.IgnoredBitsHaveNoEffect
  refine ⟨fun evop evop' k s h => exec_evt_congr k s (by rw [polarity_eq, polarity_eq, h]), ?_⟩
  intro am am' b e pair acc s h he hexp
  cases hw : s.ctlWait with
  | tx => rw [exec_waiting _ hw, exec_waiting _ hw]
  | none =>
    rw [exec_quad_accepted hw he, exec_quad_accepted hw he,
      receiveQuad_last_congr b e pair _ hexp.le (amMatches_congr acc.pol h)]

end Sys2Proof.Machine
end

