-- ==== Sys2Proof/Proofs/FlashScheduler.lean ====
section
/-! PROOFS. FlashScheduler (43_flash_scheduler.md): TICK with and without a transmission in flight, the phase and its sequence. -/

namespace Sys2Proof.Machine

/-! ### The phase (R110) -/

/-- Two toggles give the phase back. -/
theorem togglePhase_involutive : Function.Involutive togglePhase := by
  intro ph
  cases ph <;> rfl

/-- The phase `n` toggles after OFF. -/
theorem togglePhase_iterate_off (n : Nat) : togglePhase^[n] .off = if n % 2 = 1 then .on else .off := by
  split
  · next hodd => rw [togglePhase_involutive.iterate_odd (Nat.odd_iff.2 hodd)]; rfl
  · next hn =>
    have heven : Even n := Nat.even_iff.2 (by omega)
    rw [togglePhase_involutive.iterate_even heven]; rfl

/-! ### TICK with a transmission in flight (R113) -/

/-- Under HOLD the TICK is not accepted. -/
theorem exec_tick_held {s : State} (hs : Accepting s) (hb : s.busy = true) (hp : s.params.tickBusyPolicy = .hold) :
    exec .tick s = .next s := by
  obtain ⟨hw, he⟩ := hs
  have hheld : heldOf .tick s = true := by simp [heldOf, tickHeld, hb, hp]
  rw [exec_eq_gate rfl, hheld, gate_held _ hw he]

/-- Under SKIP the TICK is accepted and lost. -/
theorem exec_tick_skipped {s : State} (hs : Accepting s) (hb : s.busy = true) (hp : s.params.tickBusyPolicy = .skip) :
    exec .tick s = .next s.accept := by
  obtain ⟨hw, he⟩ := hs
  have hnotHeld : heldOf .tick s = false := by simp [heldOf, tickHeld, hp]
  rw [exec_accepted rfl hnotHeld hw he, effectOf, accept_busy, hb, if_pos rfl]

/-- Settles O27: the gate holds the TICK under HOLD, and under SKIP accepts it with no effect. -/
theorem tickInFlightIsHeldOrSkipped : Obligations.TickInFlightIsHeldOrSkipped := by
  unfold Obligations.TickInFlightIsHeldOrSkipped
  exact fun _ hs hb => ⟨exec_tick_held hs hb, exec_tick_skipped hs hb⟩

/-! ### The pass (R111, R112) -/

/-- The index of a record that a phase selects (R111). -/
theorem selectIndex_eq (ph : Phase) (r : LedRec) : selectIndex ph r = if ph = .on then r.on else r.off := by
  cases ph <;> rfl

/-- Settles O25: TICK is its pass, and the pass is known entry by entry, each entry by its own four reads. -/
theorem tickCompletesWhateverTheReadsAnswer : Obligations.TickCompletesWhateverTheReadsAnswer := by
  unfold Obligations.TickCompletesWhateverTheReadsAnswer
  intro s hs hb
  obtain ⟨d, hfirst, hlast, hentry⟩ :=
    renderAll_entries s.params s.store (togglePhase s.phase) s.led ⟨s.cfgFail, s.draws⟩
  obtain ⟨hlength, hanswers, -⟩ :=
    renderAll_reads s.params s.store (togglePhase s.phase) s.led ⟨s.cfgFail, s.draws⟩
  refine ⟨tickPass s.accept, d, exec_tick_of_idle hs hb, ?whole, togglePhase_eq s.phase, hlength, hfirst, ?entry⟩
  case whole =>
    rw [← hlast, ← hanswers]
    rfl
  case entry =>
    intro p rec hrec i
    have hindex : i = selectIndex (togglePhase s.phase) rec := (selectIndex_eq _ rec).symm
    rw [hindex]
    exact hentry p rec hrec

/-! ### TICKs in succession (R115) -/

/-- With every read successful, what a TICK leaves behind answers every read of the next as well. -/
theorem storeHolds_tickPass {s : State} {v : CfgKey → Byte} (h : StoreHolds s v) : StoreHolds (tickPass s) v := by
  rw [tickPass_of_storeHolds h]
  exact h

/-- With every read successful the frame of a pass is a function of the parameters, the records and the phase. -/
theorem tickPass_frame_congr {s t : State} {v : CfgKey → Byte} (hs : StoreHolds s v) (ht : StoreHolds t v)
    (hparams : t.params = s.params) (hled : t.led = s.led) (hphase : t.phase = s.phase) :
    (tickPass t).frame = (tickPass s).frame := by
  rw [tickPass_of_storeHolds hs, tickPass_of_storeHolds ht, hparams, hled, hphase]

/-- Settles O28: the second TICK gives back the phase before the first, so the third renders what the first did. -/
theorem twoTicksReproduceTheFrame : Obligations.TwoTicksReproduceTheFrame := by
  unfold Obligations.TwoTicksReproduceTheFrame
  intro s v hs hb hv
  have hsecond : StoreHolds (tickPass s.accept) v := storeHolds_tickPass (s := s.accept) hv
  have hthird : StoreHolds (tickPass (tickPass s.accept).accept) v :=
    storeHolds_tickPass (s := (tickPass s.accept).accept) hsecond
  have hphase : (tickPass (tickPass s.accept).accept).phase = s.phase := togglePhase_involutive s.phase
  exact ⟨_, _, _, exec_tick_of_idle hs hb, exec_tick_of_idle hs hb, exec_tick_of_idle hs hb,
    congrArg togglePhase hphase, tickPass_frame_congr (s := s.accept) hv hthird rfl rfl hphase, rfl⟩

/-! ### The phase sequence (R117) -/

/-- The bit-level step of a TICK at the head of the port, with no transmission in flight. -/
theorem step_tick_of_idle {s : State} {ws : List Word} {ms : List Move} (hs : s.sched = .controller :: ms)
    (hp : s.port = encode .tick :: ws) (hl : s.params.level = .bit) (ha : Accepting s) (hb : s.busy = false) :
    step s = .next (tickPass (s.toCome ws ms)) := by
  rw [step_controller_bit hs hp (decode_encode .tick) hl, ← accept_toCome ms hp]
  exact exec_tick_of_idle (s := { s with sched := ms }) ha hb

/-- `n` TICKs on the port, each with a controller turn, are executed one after the other, and each toggles the phase. -/
theorem run_ticks (n : Nat) {s : State} (hs : s.sched = List.replicate n .controller)
    (hp : s.port = List.replicate n (encode .tick)) (hl : s.params.level = .bit) (ha : Accepting s)
    (hb : s.busy = false) :
    ∃ t, Host.Core.run Sys2Proof.core n s = .next t ∧ t.port = [] ∧ t.phase = togglePhase^[n] s.phase := by
  induction n generalizing s with
  | zero => exact ⟨s, rfl, hp, rfl⟩
  | succ n ih =>
    rw [run_succ (step_tick_of_idle hs hp hl ha hb)]
    exact ih (s := tickPass (s.toCome (List.replicate n (encode .tick)) (List.replicate n .controller)))
      rfl rfl hl ha hb

/-- Settles O29: after reset each of the `n` TICKs toggles the phase, and reset's phase is OFF. -/
theorem phaseSequenceFromReset : Obligations.PhaseSequenceFromReset := by
  unfold Obligations.PhaseSequenceFromReset
  intro p n hl
  have hword : (0x5000000000000000 : Word) = encode .tick := by decide
  rw [hword, ← togglePhase_iterate_off n]
  exact run_ticks n rfl rfl hl ⟨rfl, rfl⟩ rfl

/-! ### Who toggles the phase (R110) -/

/-- An accepted command changes the phase only as a TICK that runs its pass. -/
theorem effectOf_phase {i : Instr} {t : State} (h : (effectOf i t).phase ≠ t.phase) :
    i = .tick ∧ t.busy = false ∧ (effectOf i t).phase = togglePhase t.phase := by
  rcases effectOf_shape i t with ⟨_, _, _, hx, -⟩ | ⟨hi, hb, hx⟩ | ⟨-, -, -, hx⟩
  · exact absurd (by rw [hx]) h
  · exact ⟨hi, hb, by rw [hx]; rfl⟩
  · exact absurd (by rw [hx]; rfl) h

/-- From `s` to `t` the controller executed a TICK with no transmission in flight, and the phase was toggled (R110). -/
def TickRan (s t : State) : Prop :=
  s.busy = false ∧ t.phase = togglePhase s.phase ∧
    ∃ w ws, s.port = w :: ws ∧ decode w = .instr .tick ∧ t.port = ws

/-- Only the port, the phase and `busy` before the step, and the port and the phase after it, say whether a TICK ran. -/
theorem TickRan.congr {s s' t t' : State} (h : TickRan s t) (hb : s'.busy = s.busy) (hs : s'.phase = s.phase)
    (hp : s'.port = s.port) (ht : t'.phase = t.phase) (hq : t'.port = t.port) : TickRan s' t' := by
  unfold TickRan
  rw [hb, hs, hp, ht, hq]
  exact h

/-- The controller changes the phase only by an executed TICK. -/
theorem tickRan_of_controllerRun {s t : State} (h : controllerRun s = .next t) (hph : t.phase ≠ s.phase) :
    TickRan s t := by
  rcases controllerRun_next h with rfl | ⟨w, ws, i, hp, hd, -, hx⟩
  · exact absurd rfl hph
  · rcases exec_next hx with rfl | ⟨-, -, rfl⟩
    · exact absurd rfl hph
    · obtain ⟨rfl, hb, htoggle⟩ := effectOf_phase hph
      exact ⟨hb, htoggle, w, ws, hp, hd, by simp [hp]⟩

/-- At cycle level the clock cycle around the command touches neither the phase nor what tells the TICK. -/
theorem tickRan_of_controllerTurn {s t : State} (h : controllerTurn s = .next t) (hph : t.phase ≠ s.phase) :
    TickRan s t := by
  rcases controllerTurn_next h with ⟨-, hr⟩ | ⟨-, u, hr, rfl⟩
  · exact tickRan_of_controllerRun hr hph
  · have hu : TickRan (openCycle s) u := tickRan_of_controllerRun hr (by simpa using hph)
    exact hu.congr (by simp) (by simp) (by simp) (by simp) (by simp)

/-- Settles O49: the engine and the environment's moves leave the phase alone, and the controller changes it only by an
executed TICK. -/
theorem onlyATickTogglesThePhase : Obligations.OnlyATickTogglesThePhase := by
  unfold Obligations.OnlyATickTogglesThePhase
  intro s t hn hreset hph
  rw [← togglePhase_eq]
  show TickRan s t
  cases step_next hn with
  | controller hc => exact (tickRan_of_controllerTurn hc hph).congr rfl rfl rfl rfl rfl
  | engine ht =>
    obtain ⟨-, -, hphase, -⟩ := engineTurn_frame s.popMove
    exact absurd (ht ▸ hphase) hph
  | present w ht => exact absurd (by rw [ht]; rfl) hph
  | setCfg key v ht => exact absurd (by rw [ht]; rfl) hph
  | dropCfg key ht => exact absurd (by rw [ht]; rfl) hph
  | failReads answers ht => exact absurd (by rw [ht]; rfl) hph
  | reset n ms hs ht => exact absurd hs (hreset n ms)
  | nothing ht => exact absurd (by rw [ht]) hph

end Sys2Proof.Machine
end

