-- ==== Sys2Proof/Proofs/FrameSerializer.lean ====
section
/-! PROOFS. FrameSerializer (44_frame_serializer.md): the frame's bits, SERVICE and REFRESH, the engine at both levels, and
what no step does to a transmission in flight. -/

namespace Sys2Proof.Machine

/-! ### The frame's bits in wire order (R51, R118) -/

/-- The bits of a byte in the order they are sent, the most significant first (R118). -/
def byteBits (b : Byte) : List Bool :=
  [b.getLsbD 7, b.getLsbD 6, b.getLsbD 5, b.getLsbD 4, b.getLsbD 3, b.getLsbD 2, b.getLsbD 1, b.getLsbD 0]

/-- The 24 bits of an entry in the order they are sent, slot 0 first (R51). -/
def entryBits (t : Wire3) : List Bool := [t.b0, t.b1, t.b2].flatMap byteBits

/-- The first 24 bits of the frame are those of LED 0. -/
theorem map_frameBit_head (t : Wire3) (ts : List Wire3) : (List.range 24).map (frameBit (t :: ts)) = entryBits t := rfl

/-- Past LED 0 the bits are those of the frame without it. -/
theorem frameBit_cons_add (t : Wire3) (ts : List Wire3) (k : Nat) : frameBit (t :: ts) (24 + k) = frameBit ts k := by
  have hled : (24 + k) / 24 = k / 24 + 1 := by omega
  have hslot : (24 + k) % 24 / 8 = k % 24 / 8 := by omega
  have hbit : (24 + k) % 8 = k % 8 := by omega
  simp only [frameBit, hled, hslot, hbit, List.getElem?_cons_succ]

/-- Settles O31: by induction on the frame, LED 0 first. -/
theorem frameBitsInWireOrder : Obligations.FrameBitsInWireOrder := by
  unfold Obligations.FrameBitsInWireOrder
  intro frame
  show _ = frame.flatMap entryBits
  induction frame with
  | nil => rfl
  | cons t ts ih =>
    have hrest : frameBit (t :: ts) ∘ (24 + ·) = frameBit ts := funext (frameBit_cons_add t ts)
    rw [List.length_cons, Nat.mul_succ, Nat.add_comm, List.range_add, List.map_append, List.map_map, map_frameBit_head,
      hrest, ih, List.flatMap_cons]

/-! ### DIRTY_CLEAR and TX_STRATEGY (R121, R123, R124) -/

/-- The start of a transmission leaves a set `dirty` set under AT_COMPLETE alone. -/
theorem dirtyAtStart_true (p : Params) : dirtyAtStart p true = decide (p.dirtyClear = .atComplete) := by
  unfold dirtyAtStart
  cases p.dirtyClear <;> rfl

/-- The completion of a transmission leaves `dirty` alone under AT_START, and else clears it. -/
theorem dirtyAtComplete_eq (p : Params) (dirty : Bool) :
    dirtyAtComplete p dirty = (dirty && decide (p.dirtyClear = .atStart)) := by
  unfold dirtyAtComplete
  cases p.dirtyClear <;> simp

/-- From no wait, the start of a transmission makes the controller wait under BLOCKING alone. -/
theorem waitAtStart_none (p : Params) : waitAtStart p .none = if p.txStrategy = .blocking then .tx else .none := by
  unfold waitAtStart
  cases p.txStrategy <;> rfl

/-! ### SERVICE and REFRESH (R119 to R121, R124) -/

/-- A SERVICE taken with `dirty` set and the engine idle starts a transmission. -/
theorem effectOf_service_starts {t : State} (hd : t.dirty = true) (hb : t.busy = false) :
    effectOf .service t = startTx t := by
  simp [effectOf, hd, hb]

/-- Any other SERVICE that is taken has no effect. -/
theorem effectOf_service_defers {t : State} (h : t.dirty = false ∨ t.busy = true) : effectOf .service t = t := by
  rcases h with hd | hb
  · simp [effectOf, hd]
  · simp [effectOf, hb]

/-- Settles O32: SERVICE is accepted, and its effect is the start of a transmission or none. -/
theorem serviceStartsOrDefers : Obligations.ServiceStartsOrDefers := by
  unfold Obligations.ServiceStartsOrDefers
  intro s ⟨hw, he⟩
  have haccepted : exec .service s = .next (effectOf .service s.accept) := exec_accepted rfl rfl hw he
  refine ⟨fun hd hb => ?_, fun h => ?_⟩
  · have hdirty : dirtyAtStart s.params s.dirty = decide (s.params.dirtyClear = .atComplete) := by
      rw [hd, dirtyAtStart_true]
    have hwait : waitAtStart s.params s.ctlWait = if s.params.txStrategy = .blocking then .tx else .none := by
      rw [hw, waitAtStart_none]
    rw [haccepted, effectOf_service_starts (t := s.accept) hd hb, ← hdirty, ← hwait]
    rfl
  · rw [haccepted, effectOf_service_defers (t := s.accept) h]
    rfl

/-- Settles O33: REFRESH is accepted, and its effect is the set of `dirty`. -/
theorem refreshOnlySetsDirty : Obligations.RefreshOnlySetsDirty := by
  unfold Obligations.RefreshOnlySetsDirty
  intro s ⟨hw, he⟩
  exact exec_accepted (i := .refresh) rfl rfl hw he

/-! ### The engine's steps at bit level (R122, R123, R126, R127) -/

/-- A chosen engine move is the engine's turn. -/
theorem step_engine {s : State} {ms : List Move} (hs : s.sched = .engine :: ms) :
    step s = .next (engineTurn { s with sched := ms }) := step_move hs

/-- In IDLE the engine has no step. -/
theorem engineTurn_idle {s : State} (hl : s.params.level = .bit) (ht : s.txState = .idle) : engineTurn s = s := by
  simp [engineTurn, hl, engineBit, ht]

/-- The cursor stands on the last of the frame's 24 x CAPACITY bits. -/
theorem lastBit_iff (s : State) : lastBit s = true ↔ s.txK = 24 * s.params.capacity - 1 := decide_eq_true_iff

/-- Settles O34: in BITS the engine's step is EMIT. -/
theorem emitSendsOneBit : Obligations.EmitSendsOneBit := by
  unfold Obligations.EmitSendsOneBit
  intro s ms hl hs ht
  rw [step_engine hs, engineTurn_bits (s := { s with sched := ms }) hl ht]
  simp only [← lastBit_iff]
  rfl

/-- Settles O35: in GAP the engine's step is COMPLETE; in IDLE it has none. -/
theorem completeEndsTheTransmission : Obligations.CompleteEndsTheTransmission := by
  unfold Obligations.CompleteEndsTheTransmission
  intro s ms hl hs
  refine ⟨fun ht => ?_, fun ht => ?_⟩
  · rw [step_engine hs, engineTurn_gap (s := { s with sched := ms }) hl ht, ← dirtyAtComplete_eq]
    rfl
  · rw [step_engine hs, engineTurn_idle (s := { s with sched := ms }) hl ht]

/-- Settles O36: the EMIT steps of the whole frame, from its first bit, and then COMPLETE. -/
theorem transmissionSendsTheWholeFrame : Obligations.TransmissionSendsTheWholeFrame := by
  unfold Obligations.TransmissionSendsTheWholeFrame
  intro s ms h hl ht hk hs
  have hrun := transmit_iterate hl ht h.txK
  simp only [hk, Nat.sub_zero, Nat.zero_add] at hrun
  rw [run_engine _ s ms hs, ← dirtyAtComplete_eq]
  exact congrArg (fun t : State => Host.Outcome.next { t with sched := ms }) hrun

/-! ### The engine's clock cycles (R128, R129, R132) -/

/-- Settles O38: the clock cycles of a bit period are one EMIT. -/
theorem bitPeriodRefinesEmit : Obligations.BitPeriodRefinesEmit := by
  unfold Obligations.BitPeriodRefinesEmit
  intro s ms hp hl ht hc hs
  rw [run_engine _ s ms hs, bitPeriod_iterate hp hl ht hc]
  simp only [← lastBit_iff]
  rfl

/-- Settles O39: the clock cycles of the gap are one COMPLETE. -/
theorem gapRefinesComplete : Obligations.GapRefinesComplete := by
  unfold Obligations.GapRefinesComplete
  intro s ms hp hl ht hg hs
  obtain ⟨-, -, -, hreset⟩ := paramsOk_bounds hp
  rw [run_engine _ s ms hs, gap_iterate hreset hl ht hg]
  rfl

/-- A run of the first `n` of the chosen engine moves is `n` engine steps. -/
theorem run_engine_le {n m : Nat} {s : State} {ms : List Move} (hs : s.sched = List.replicate m .engine ++ ms)
    (h : n ≤ m) :
    Host.Core.run Sys2Proof.core n s =
      .next { engineTurn^[n] s with sched := List.replicate (m - n) .engine ++ ms } := by
  refine run_engine n s _ ?_
  rw [hs, ← List.append_assoc, List.replicate_append_replicate, Nat.add_sub_cancel' h]

/-- After `j + 1` clock cycles of a bit period the line has the level of cycle `j`: high in the high time of the bit under
the cursor, low after it (R129). -/
theorem bitPeriod_dout {s : State} (hp : paramsOk s.params = true) (hl : s.params.level = .cycle)
    (ht : s.txState = .bits) (hc : s.txC = 0) {j : Nat} (hj : j < s.params.bitCycles) :
    (engineTurn^[j + 1] s).dout = decide (j < highCycles s.params (frameBit s.frame s.txK)) := by
  obtain ⟨-, hhigh, -⟩ := highCycles_lt hp (frameBit s.frame s.txK)
  by_cases hlast : j + 1 = s.params.bitCycles
  · rw [hlast, bitPeriod_iterate hp hl ht hc]
    exact (decide_eq_false (by omega)).symm
  · rw [bitPeriod_inside hl ht hc j (by omega)]

/-- Settles O40: the level of each clock cycle of a bit period, the last one included. -/
theorem bitPeriodWaveform : Obligations.BitPeriodWaveform := by
  unfold Obligations.BitPeriodWaveform
  exact ⟨⟨rfl, rfl, rfl⟩, fun s ms j hp hl ht hc hs hj => ⟨_, run_engine_le hs hj, bitPeriod_dout hp hl ht hc hj⟩⟩

/-! ### How long a transmission lasts (R133) -/

/-- The clock cycles a transmission in flight still needs. -/
def cyclesLeft (s : State) : Nat :=
  match s.txState with
  | .idle => 0
  | .bits => (s.params.frameBits - s.txK) * s.params.bitCycles - s.txC + s.params.resetCycles
  | .gap => s.params.resetCycles - s.txG

theorem cyclesLeft_idle {s : State} (ht : s.txState = .idle) : cyclesLeft s = 0 := by
  simp [cyclesLeft, ht]

theorem cyclesLeft_bits {s : State} (ht : s.txState = .bits) :
    cyclesLeft s = (s.params.frameBits - s.txK) * s.params.bitCycles - s.txC + s.params.resetCycles := by
  simp [cyclesLeft, ht]

theorem cyclesLeft_gap {s : State} (ht : s.txState = .gap) : cyclesLeft s = s.params.resetCycles - s.txG := by
  simp [cyclesLeft, ht]

/-- `busy` says that clock cycles are left (R28, R29). -/
theorem Coherent.busy_eq {s : State} (h : Coherent s) : s.busy = decide (0 < cyclesLeft s) := by
  obtain ⟨-, -, -, hreset⟩ := paramsOk_bounds h.params
  have hgap := h.txG
  rw [Bool.eq_iff_iff, h.busy, decide_eq_true_iff]
  cases ht : s.txState with
  | idle => simp [cyclesLeft_idle ht]
  | bits => simp only [cyclesLeft_bits ht, ne_eq, reduceCtorEq, not_false_eq_true, true_iff]; omega
  | gap => simp only [cyclesLeft_gap ht, ne_eq, reduceCtorEq, not_false_eq_true, true_iff]; omega

/-- With `busy` low the engine is idle (R28). -/
theorem Coherent.idle_of_not_busy {s : State} (h : Coherent s) (hb : s.busy = false) : s.txState = .idle := by
  by_contra hne
  simp [h.busy.2 hne] at hb

/-- An idle engine lets a clock cycle pass, and stays idle. -/
theorem engineCycle_idle {s : State} (ht : s.txState = .idle) : engineCycle s = openCycle s := by
  show cycleRegs (openCycle s) = openCycle s
  simp [cycleRegs, ht]

/-- Each clock cycle of a transmission in BITS uses up one. -/
theorem Coherent.cyclesLeft_engineCycle_bits {s : State} (h : Coherent s) (ht : s.txState = .bits) :
    cyclesLeft (engineCycle s) = cyclesLeft s - 1 := by
  obtain ⟨-, hhigh, -⟩ := highCycles_lt h.params (frameBit s.frame s.txK)
  have hcycle := h.txC
  obtain ⟨n, hn⟩ : ∃ n, s.params.frameBits - s.txK = n + 1 := ⟨s.params.frameBits - s.txK - 1, by have := h.txK; omega⟩
  rw [cyclesLeft_bits ht, hn, Nat.succ_mul]
  by_cases hc : s.txC = s.params.bitCycles - 1
  · rw [engineCycle_last ht hc hhigh]
    by_cases hlast : lastBit s = true
    · have hk : s.txK = s.params.frameBits - 1 := by simpa [lastBit] using hlast
      obtain rfl : n = 0 := by omega
      rw [cyclesLeft_gap (by simp [hlast])]
      simp only [hlast, if_true, emit_params]
      omega
    · have hk : s.params.frameBits - (s.txK + 1) = n := by omega
      rw [cyclesLeft_bits (by simp [hlast])]
      simp only [hlast, Bool.false_eq_true, if_false, emit_params, emit_txK, hk]
      omega
  · rw [engineCycle_inside ht hc, cyclesLeft_bits (by exact ht)]
    simp only [hn, Nat.succ_mul]
    omega

/-- So does each clock cycle of the gap. -/
theorem cyclesLeft_engineCycle_gap {s : State} (ht : s.txState = .gap) :
    cyclesLeft (engineCycle s) = cyclesLeft s - 1 := by
  rw [cyclesLeft_gap ht]
  by_cases hg : s.txG = s.params.resetCycles - 1
  · rw [engineCycle_end ht hg, cyclesLeft_idle rfl]
    omega
  · rw [engineCycle_gap ht hg, cyclesLeft_gap (by exact ht)]
    dsimp only
    omega

/-- A clock cycle uses up one, while there are any. -/
theorem Coherent.cyclesLeft_engineTurn {s : State} (h : Coherent s) (hl : s.params.level = .cycle) :
    cyclesLeft (Machine.engineTurn s) = cyclesLeft s - 1 := by
  rw [engineTurn_cycle hl]
  cases ht : s.txState with
  | idle => rw [engineCycle_idle ht, cyclesLeft_idle ht, cyclesLeft_idle (by simpa using ht)]
  | bits => exact h.cyclesLeft_engineCycle_bits ht
  | gap => exact cyclesLeft_engineCycle_gap ht

/-- After `n` clock cycles the engine is busy exactly when more than `n` were left. -/
theorem Coherent.busy_engineTurn_iterate {s : State} (h : Coherent s) (hl : s.params.level = .cycle) (n : Nat) :
    (Machine.engineTurn^[n] s).busy = decide (n < cyclesLeft s) := by
  induction n generalizing s with
  | zero => exact h.busy_eq
  | succ n ih =>
    rw [Function.iterate_succ_apply, ih h.engineTurn (by simpa using hl), h.cyclesLeft_engineTurn hl]
    exact decide_eq_decide.2 Nat.lt_sub_iff_add_lt

/-- Settles O41: at its start a transmission has the stated number of clock cycles left. -/
theorem transmissionLastsExactly : Obligations.TransmissionLastsExactly := by
  unfold Obligations.TransmissionLastsExactly
  intro s ms n h hl ht hk hc hs hn
  have hleft : cyclesLeft s = 24 * s.params.capacity * s.params.bitCycles + s.params.resetCycles := by
    rw [cyclesLeft_bits ht, hk, hc]
    rfl
  exact ⟨_, run_engine_le hs hn, hleft ▸ h.busy_engineTurn_iterate hl n⟩

/-! ### The parameters (R139, R168) -/

/-- The controller leaves the parameters alone. -/
theorem controllerRun_params {s t : State} (h : controllerRun s = .next t) : t.params = s.params := by
  rcases controllerRun_next h with rfl | ⟨w, ws, i, -, -, -, hx⟩
  · rfl
  · rcases exec_next hx with rfl | ⟨-, -, rfl⟩
    · rfl
    · simp

/-- So does its turn, at either level. -/
theorem controllerTurn_params {s t : State} (h : controllerTurn s = .next t) : t.params = s.params := by
  rcases controllerTurn_next h with ⟨-, hr⟩ | ⟨-, u, hr, rfl⟩
  · exact controllerRun_params hr
  · simpa using controllerRun_params hr

/-- Settles O45: no agent's step writes the parameters. -/
theorem parametersNeverChange : Obligations.ParametersNeverChange := by
  unfold Obligations.ParametersNeverChange
  intro s t hn
  cases step_next hn with
  | controller hc => exact controllerTurn_params (s := s.popMove) hc
  | engine ht => exact ht ▸ engineTurn_params s.popMove
  | present w ht => rw [ht]; rfl
  | setCfg key v ht => rw [ht]; rfl
  | dropCfg key ht => rw [ht]; rfl
  | failReads answers ht => rw [ht]; rfl
  | reset n ms hs ht => rw [ht]; rfl
  | nothing ht => rw [ht]

/-! ### No overlap and no cancellation (R127, R137) -/

/-- At cycle level the engine's turn is a clock cycle around no command. -/
theorem engineTurn_eq_closeCycle {s : State} (hl : s.params.level = .cycle) :
    engineTurn s = closeCycle s (openCycle s) := by
  rw [engineTurn_cycle hl, closeCycle]
  split
  · next ht => exact engineCycle_idle ht
  · rfl

/-- A transmission in flight in `s` goes on in `t`: it keeps its place, or moves on in BITS, to GAP after the last bit, or
from GAP to IDLE. -/
def TxGoesOn (s t : State) : Prop :=
  (s.txState = .bits →
    (t.txState = .bits ∧ (t.txK = s.txK ∨ t.txK = s.txK + 1)) ∨
    (t.txState = .gap ∧ s.txK = 24 * s.params.capacity - 1 ∧ t.txK = s.txK)) ∧
  (s.txState = .gap → t.txK = s.txK ∧ (t.txState = .gap ∨ t.txState = .idle))

/-- A step that leaves the engine's place alone. -/
theorem TxGoesOn.of_eq {s t : State} (ht : t.txState = s.txState) (hk : t.txK = s.txK) : TxGoesOn s t := by
  unfold TxGoesOn
  rw [ht, hk]
  exact ⟨fun h => .inl ⟨h, .inl rfl⟩, fun h => ⟨rfl, .inl h⟩⟩

/-- With no transmission in flight there is nothing to go on. -/
theorem TxGoesOn.of_idle {s t : State} (h : s.txState = .idle) : TxGoesOn s t := by
  simp [TxGoesOn, h]

/-- Only the engine's place and the parameters before the step count. -/
theorem TxGoesOn.congr {s s' t : State} (h : TxGoesOn s t) (ht : s'.txState = s.txState) (hk : s'.txK = s.txK)
    (hp : s'.params = s.params) : TxGoesOn s' t := by
  unfold TxGoesOn
  rw [ht, hk, hp]
  exact h

/-- A step from BITS that does what EMIT does to the engine's place. -/
theorem TxGoesOn.of_emit {s t : State} (hs : s.txState = .bits) (ht : t.txState = (emit s).txState)
    (hk : t.txK = (emit s).txK) : TxGoesOn s t := by
  refine ⟨fun _ => ?_, fun hg => by simp [hs] at hg⟩
  rw [ht, hk, emit_txState, emit_txK]
  split
  · next hlast => exact .inr ⟨rfl, (lastBit_iff s).1 hlast, rfl⟩
  · exact .inl ⟨rfl, .inr rfl⟩

/-- A step from GAP that goes idle and leaves the cursor. -/
theorem TxGoesOn.of_gap_end {s t : State} (hs : s.txState = .gap) (ht : t.txState = .idle) (hk : t.txK = s.txK) :
    TxGoesOn s t :=
  ⟨fun hb => by simp [hs] at hb, fun _ => ⟨hk, .inr ht⟩⟩

/-- A transmission goes on through EMIT and COMPLETE. -/
theorem txGoesOn_engineBit (s : State) : TxGoesOn s (engineBit s) := by
  unfold engineBit
  split
  · exact .of_eq rfl rfl
  · next ht => exact .of_emit ht rfl rfl
  · next ht => exact .of_gap_end ht rfl rfl

/-- A transmission goes on through the end of a clock cycle. -/
theorem txGoesOn_cycleRegs (s : State) : TxGoesOn s (cycleRegs s) := by
  unfold cycleRegs
  split
  · exact .of_eq rfl rfl
  · next ht =>
    split
    · split
      · next hlast => exact .of_emit ht (by simp [hlast]) (by simp [hlast])
      · next hlast => exact .of_emit ht (by simp [hlast, ht]) (by simp [hlast])
    · exact .of_eq rfl rfl
  · next ht =>
    split
    · exact .of_gap_end ht rfl rfl
    · exact .of_eq rfl rfl

/-- A transmission goes on through a clock cycle whose command has left the engine's place alone. -/
theorem txGoesOn_closeCycle {s u : State} (ht : u.txState = s.txState) (hk : u.txK = s.txK)
    (hp : u.params = s.params) : TxGoesOn s (closeCycle s u) := by
  unfold closeCycle
  split
  · next hi => exact .of_idle hi
  · exact (txGoesOn_cycleRegs u).congr ht.symm hk.symm hp.symm

/-- A transmission goes on through the engine's turn. -/
theorem txGoesOn_engineTurn (s : State) : TxGoesOn s (engineTurn s) := by
  cases hl : s.params.level with
  | bit =>
    rw [engineTurn, hl]
    exact txGoesOn_engineBit s
  | cycle =>
    rw [engineTurn_eq_closeCycle hl]
    exact txGoesOn_closeCycle (by simp) (by simp) (by simp)

/-- A transmission goes on through the controller's turn, at either level. -/
theorem txGoesOn_controllerTurn {s t : State} (hb : s.busy = true) (h : controllerTurn s = .next t) : TxGoesOn s t := by
  rcases controllerTurn_next h with ⟨-, hr⟩ | ⟨-, u, hr, rfl⟩
  · obtain ⟨_, _, _, _, rfl, -⟩ := controllerRun_busy hb hr
    exact .of_eq rfl rfl
  · obtain ⟨_, _, _, _, rfl, -⟩ := controllerRun_busy ((openCycle_busy s).trans hb) hr
    exact txGoesOn_closeCycle (openCycle_txState s) (openCycle_txK s) (openCycle_params s)

/-- Settles O48: a busy engine's place is moved by its own steps alone. -/
theorem noOverlapAndNoCancellation : Obligations.NoOverlapAndNoCancellation := by
  unfold Obligations.NoOverlapAndNoCancellation
  intro s t h hn hreset
  show TxGoesOn s t
  by_cases hi : s.txState = .idle
  · exact .of_idle hi
  cases step_next hn with
  | controller hc => exact (txGoesOn_controllerTurn (s := s.popMove) (h.busy.2 hi) hc).congr rfl rfl rfl
  | engine ht => exact ht ▸ (txGoesOn_engineTurn s.popMove).congr rfl rfl rfl
  | present w ht => exact .of_eq (by rw [ht]; rfl) (by rw [ht]; rfl)
  | setCfg key v ht => exact .of_eq (by rw [ht]; rfl) (by rw [ht]; rfl)
  | dropCfg key ht => exact .of_eq (by rw [ht]; rfl) (by rw [ht]; rfl)
  | failReads answers ht => exact .of_eq (by rw [ht]; rfl) (by rw [ht]; rfl)
  | reset n ms hs ht => exact absurd hs (hreset n ms)
  | nothing ht => exact .of_eq (by rw [ht]) (by rw [ht])

/-! ### Who clears `dirty` (R25, R138) -/

/-- From `s` to `t` a transmission started under AT_START, or completed under AT_COMPLETE. -/
def TxClearsDirty (s t : State) : Prop :=
  (s.params.dirtyClear = .atStart ∧ s.txState = .idle ∧ t.txState = .bits ∧ t.txK = 0) ∨
  (s.params.dirtyClear = .atComplete ∧ s.txState = .gap ∧ t.txState = .idle)

/-- The start of a transmission clears a set `dirty` under AT_START alone. -/
theorem atStart_of_cleared {p : Params} {dirty : Bool} (hd : dirty = true) (h : dirtyAtStart p dirty = false) :
    p.dirtyClear = .atStart := by
  rw [hd, dirtyAtStart_true] at h
  cases hp : p.dirtyClear with
  | atStart => rfl
  | atComplete => simp [hp] at h

/-- Its completion clears a set `dirty` under AT_COMPLETE alone. -/
theorem atComplete_of_cleared {p : Params} {dirty : Bool} (hd : dirty = true) (h : dirtyAtComplete p dirty = false) :
    p.dirtyClear = .atComplete := by
  rw [hd, dirtyAtComplete_eq] at h
  cases hp : p.dirtyClear with
  | atStart => simp [hp] at h
  | atComplete => rfl

/-- A command that clears `dirty` starts a transmission on an idle engine. -/
theorem startTx_of_controllerRun_cleared {s t : State} (h : controllerRun s = .next t) (hd : s.dirty = true)
    (hc : t.dirty = false) :
    s.params.dirtyClear = .atStart ∧ s.busy = false ∧ t.txState = .bits ∧ t.txK = 0 := by
  rcases controllerRun_next h with rfl | ⟨w, ws, i, -, -, -, hx⟩
  · simp [hd] at hc
  · rcases exec_next hx with rfl | ⟨-, -, rfl⟩
    · simp [hd] at hc
    · rcases effectOf_shape i s.accept with ⟨led, evt, dirty, he, -, hkeep⟩ | ⟨-, -, he⟩ | ⟨-, hb, -, he⟩
      · simp [he, hkeep hd] at hc
      · simp [he, tickPass] at hc
      · rw [he] at hc ⊢
        exact ⟨atStart_of_cleared hd hc, hb, rfl, rfl⟩

/-- The part of a clock cycle before the command clears `dirty` only in the last cycle of the gap, under AT_COMPLETE. -/
theorem gap_end_of_openCycle_cleared {s : State} (hd : s.dirty = true) (hc : (openCycle s).dirty = false) :
    s.txState = .gap ∧ s.txG = s.params.resetCycles - 1 ∧ s.params.dirtyClear = .atComplete := by
  rw [openCycle_eq] at hc
  dsimp only at hc
  split at hc
  · next hg =>
    obtain ⟨ht, hcount⟩ : s.txState = .gap ∧ s.txG = s.params.resetCycles - 1 := by simpa [gapEnds] using hg
    exact ⟨ht, hcount, atComplete_of_cleared hd hc⟩
  · simp [hd] at hc

/-- The last clock cycle of the gap ends the transmission. -/
theorem cycleRegs_gap_end {s : State} (ht : s.txState = .gap) (hg : s.txG = s.params.resetCycles - 1) :
    cycleRegs s = endGap s := by
  simp [cycleRegs, ht, hg]

/-- A clock cycle that clears `dirty` with a transmission in flight, whether a command ran in it or none, ends the gap. -/
theorem txClearsDirty_closeCycle {s : State} (led : List LedRec) (evt : Option EvtAcc) {dirty : Bool} (port : List Word)
    (hkeep : (openCycle s).dirty = true → dirty = true) (hd : s.dirty = true) (hc : dirty = false) :
    TxClearsDirty s (closeCycle s { openCycle s with led := led, evt := evt, dirty := dirty, port := port }) := by
  have hopen : (openCycle s).dirty = false := by
    by_contra hset
    simp [hkeep (by simpa using hset)] at hc
  obtain ⟨ht, hg, hp⟩ := gap_end_of_openCycle_cleared hd hopen
  refine .inr ⟨hp, ht, ?_⟩
  rw [closeCycle, if_neg (by simp [ht]), cycleRegs_gap_end (by simpa using ht) (by simpa using hg)]
  rfl

/-- The engine's turn clears `dirty` only as it completes a transmission. -/
theorem txClearsDirty_engineTurn {s : State} (hd : s.dirty = true) (hc : (engineTurn s).dirty = false) :
    TxClearsDirty s (engineTurn s) := by
  cases hl : s.params.level with
  | bit =>
    rw [engineTurn, hl] at hc ⊢
    dsimp only [engineBit] at hc ⊢
    split at hc
    · simp [hd] at hc
    · simp [hd] at hc
    · next ht => exact .inr ⟨atComplete_of_cleared hd hc, ht, by simp⟩
  | cycle =>
    rw [engineTurn_eq_closeCycle hl] at hc ⊢
    rw [closeCycle_dirty] at hc
    exact txClearsDirty_closeCycle (s := s) (openCycle s).led (openCycle s).evt (openCycle s).port id hd hc

/-- The controller's turn clears `dirty` only as its command starts a transmission, or at cycle level as the engine's part
of the clock cycle completes one. -/
theorem Coherent.txClearsDirty_controllerTurn {s t : State} (h : Coherent s) (hn : Machine.controllerTurn s = .next t)
    (hd : s.dirty = true) (hc : t.dirty = false) : TxClearsDirty s t := by
  rcases controllerTurn_next hn with ⟨-, hr⟩ | ⟨-, u, hr, rfl⟩
  · obtain ⟨hp, hb, ht, hk⟩ := startTx_of_controllerRun_cleared hr hd hc
    exact .inl ⟨hp, h.idle_of_not_busy hb, ht, hk⟩
  · rw [closeCycle_dirty] at hc
    cases hb : s.busy with
    | true =>
      obtain ⟨led, evt, dirty, port, rfl, hkeep⟩ := controllerRun_busy ((openCycle_busy s).trans hb) hr
      exact txClearsDirty_closeCycle led evt port hkeep hd hc
    | false =>
      have hidle := h.idle_of_not_busy hb
      have hopen : (Machine.openCycle s).dirty = true := by simp [openCycle_eq, gapEnds, hidle, hd]
      obtain ⟨hp, -, ht, hk⟩ := startTx_of_controllerRun_cleared hr hopen hc
      rw [closeCycle, if_pos hidle]
      exact .inl ⟨by simpa using hp, hidle, ht, hk⟩

/-- Settles O47: the environment's moves leave `dirty` alone, and the other two agents clear it only with a
transmission. -/
theorem onlyATransmissionClearsDirty : Obligations.OnlyATransmissionClearsDirty := by
  unfold Obligations.OnlyATransmissionClearsDirty
  intro s t h hn hreset hd hc
  show TxClearsDirty s t
  have hchanged : t.dirty ≠ s.dirty := by simp [hd, hc]
  cases step_next hn with
  | controller hx => exact h.popMove.txClearsDirty_controllerTurn hx hd hc
  | engine ht => subst ht; exact txClearsDirty_engineTurn (s := s.popMove) hd hc
  | present w ht => exact absurd (by rw [ht]; rfl) hchanged
  | setCfg key v ht => exact absurd (by rw [ht]; rfl) hchanged
  | dropCfg key ht => exact absurd (by rw [ht]; rfl) hchanged
  | failReads answers ht => exact absurd (by rw [ht]; rfl) hchanged
  | reset n ms hs ht => exact absurd hs (hreset n ms)
  | nothing ht => exact absurd (by rw [ht]) hchanged

end Sys2Proof.Machine
end

