-- ==== Sys2Proof/Proofs/Exceptions.lean ====
section
/-! PROOFS. Enabledness, holds and the ends of a run (60_exceptions.md): what a step refuses, what it holds and for how
long, the command in the completing clock cycle, stuck and final states. -/

namespace Sys2Proof.Machine

/-! ### The controller's turn without a command (R143) -/

/-- During the wait the controller does nothing, whatever word is on the port (R143 item 1). -/
theorem controllerRun_waiting {s : State} (hw : s.ctlWait = .tx) : controllerRun s = .next s := by
  rw [controllerRun, if_pos hw]

/-- A clock cycle whose controller does nothing is the engine's clock cycle alone (R132). -/
theorem controllerTurn_cycle_nothing {s : State} (hl : s.params.level = .cycle)
    (h : controllerRun (openCycle s) = .next (openCycle s)) : controllerTurn s = .next (engineTurn s) := by
  rw [controllerTurn_cycle hl h, engineTurn_eq_closeCycle hl]

/-- Settles O8: the wait comes before the word is looked at, and the engine's clock cycle touches nothing else. -/
theorem nothingIsAcceptedDuringTheWait : Obligations.NothingIsAcceptedDuringTheWait := by
  unfold Obligations.NothingIsAcceptedDuringTheWait
  refine ⟨fun i s hw => exec_waiting i hw, fun s ms hw hl hs => ?bit, fun s ms hw hl hs => ?cycle⟩
  case bit =>
    calc step s = controllerTurn { s with sched := ms } := step_move hs
      _ = controllerRun { s with sched := ms } := controllerTurn_bit hl
      _ = .next { s with sched := ms } := controllerRun_waiting hw
  case cycle =>
    have hopen : controllerRun (openCycle { s with sched := ms }) = .next (openCycle { s with sched := ms }) :=
      controllerRun_waiting ((openCycle_ctlWait _).trans hw)
    obtain ⟨hframe, hled, hphase, hevt, hport, -⟩ := engineTurn_frame { s with sched := ms }
    exact ⟨_, (step_move hs).trans (controllerTurn_cycle_nothing hl hopen), engineTurn_cycle hl, hport, hled, hevt,
      hphase, hframe⟩

/-! ### The default policy and the chosen moves, outcome by outcome (R156) -/

theorem autoStep_ready {s : State} (hr : controllerReady s = true) : autoStep s = controllerTurn s := by
  rw [autoStep, if_pos hr]

theorem autoStep_engine {s : State} (hr : controllerReady s = false) (ht : s.txState ≠ .idle) :
    autoStep s = .next (engineTurn s) := by
  simp [autoStep, hr, ht]

theorem autoStep_stuck {s : State} (hr : controllerReady s = false) (ht : s.txState = .idle) (he : s.evt.isSome = true)
    (hp : s.port = []) : autoStep s = .fault .stuck := by
  simp [autoStep, hr, ht, he, hp]

theorem autoStep_still {s : State} (hr : controllerReady s = false) (ht : s.txState = .idle)
    (h : ¬ (s.evt.isSome = true ∧ s.port = [])) : autoStep s = .next s := by
  rw [autoStep, hr, if_neg Bool.false_ne_true, if_neg (by simp [ht]), if_neg h]

/-- A chosen move, told with the move taken off the list. -/
theorem step_popMove {s : State} {m : Move} {ms : List Move} (hs : s.sched = m :: ms) : step s = moveStep m s.popMove := by
  rw [step_move hs, State.popMove, hs, List.tail_cons]

/-- Boot reset is refused only at cycle level and below its duty (R162). -/
theorem resetTurn_refused {n : Nat} {s : State} {r : Refusal} (h : resetTurn n s = .refused r) :
    s.params.level = .cycle ∧ n < s.params.resetCycles ∧ r = .resetTooShort := by
  unfold resetTurn at h
  split at h
  · next hshort => exact ⟨hshort.1, hshort.2, by cases h; rfl⟩
  · cases h

/-- Only the controller and boot reset can refuse. -/
theorem step_refused {s : State} {r : Refusal} (h : step s = .refused r) :
    controllerTurn s.popMove = .refused r ∨ ∃ n ms, s.sched = .reset n :: ms ∧ resetTurn n s.popMove = .refused r := by
  cases hs : s.sched with
  | nil =>
    rw [step_auto hs, autoStep] at h
    split at h
    · exact .inl (by rw [popMove_of_nil hs]; exact h)
    · split at h
      · cases h
      · split at h <;> cases h
  | cons m ms =>
    rw [step_popMove hs] at h
    cases m with
    | controller => exact .inl h
    | reset n => exact .inr ⟨n, ms, rfl, h⟩
    | engine => cases h
    | present w => cases h
    | setCfg key v => cases h
    | dropCfg key => cases h
    | failReads answers => cases h

/-- No chosen move faults (R140). -/
theorem moveStep_not_fault (m : Move) (s : State) (r : Fault) : moveStep m s ≠ .fault r := by
  cases m with
  | controller => exact controllerTurn_not_fault s r
  | reset n =>
    simp only [moveStep, resetTurn]
    split <;> simp
  | engine => simp [moveStep]
  | present w => simp [moveStep]
  | setCfg key v => simp [moveStep]
  | dropCfg key => simp [moveStep]
  | failReads answers => simp [moveStep]

/-! ### What is refused (R142) -/

/-- A command that `isQuad` tells is a QUAD word's, with its operands. -/
theorem exists_quad_of_isQuad {i : Instr} (h : isQuad i = true) : ∃ am b e pair, i = .quad am b e pair := by
  cases i with
  | quad am b e pair => exact ⟨am, b, e, pair, rfl⟩
  | _ => cases h

/-- A command that `isQuad` does not tell is no QUAD. -/
theorem ne_quad_of_isQuad_eq_false {i : Instr} (h : isQuad i = false) (am : Byte) (b e : Pos) (pair : Byte) :
    i ≠ .quad am b e pair := by
  rintro rfl
  cases h

/-- The word at the head of the port is illegal, or out of sequence, on the ground `r` names (R76 to R78). -/
def IllegalAtPort (s : State) (r : Refusal) : Prop :=
  ∃ w ws, s.port = w :: ws ∧
    ((∃ op, decode w = .illegal (.reservedOpcode op) ∧ r = .reservedOpcode op) ∨
     (∃ op, decode w = .illegal (.nonzeroField op) ∧ r = .nonzeroField op) ∨
     (∃ am b e pair, decode w = .instr (.quad am b e pair) ∧ s.evt = none ∧ r = .strayQuad) ∨
     (∃ i, decode w = .instr i ∧ s.evt.isSome = true ∧ (∀ am b e pair, i ≠ .quad am b e pair) ∧
       r = .eventInterrupted))

/-- Only the port and the event say whether the word is illegal. -/
theorem IllegalAtPort.congr {s s' : State} {r : Refusal} (h : IllegalAtPort s r) (hp : s'.port = s.port)
    (he : s'.evt = s.evt) : IllegalAtPort s' r := by
  unfold IllegalAtPort
  rw [hp, he]
  exact h

/-- The controller refuses an illegal word for its encoding, a legal one for its place in the sequence. -/
theorem illegalAtPort_of_controllerRun {s : State} {r : Refusal} (h : controllerRun s = .refused r) :
    IllegalAtPort s r := by
  obtain ⟨w, ws, hp, ⟨e, hd, rfl⟩ | ⟨i, hd, hx⟩⟩ := controllerRun_refused h
  · refine ⟨w, ws, hp, ?_⟩
    cases e with
    | reservedOpcode op => exact .inl ⟨op, hd, rfl⟩
    | nonzeroField op => exact .inr (.inl ⟨op, hd, rfl⟩)
  · refine ⟨w, ws, hp, .inr (.inr ?_)⟩
    rcases exec_refused hx with ⟨hq, he, rfl⟩ | ⟨hq, he, rfl⟩
    · obtain ⟨am, b, e, pair, rfl⟩ := exists_quad_of_isQuad hq
      exact .inl ⟨am, b, e, pair, hd, he, rfl⟩
    · exact .inr ⟨i, hd, he, ne_quad_of_isQuad_eq_false hq, rfl⟩

/-- At cycle level the clock cycle around the command does not touch what makes a word illegal. -/
theorem illegalAtPort_of_controllerTurn {s : State} {r : Refusal} (h : controllerTurn s = .refused r) :
    IllegalAtPort s r := by
  rcases controllerTurn_refused h with h | h
  · exact illegalAtPort_of_controllerRun h
  · exact (illegalAtPort_of_controllerRun h).congr (openCycle_port s).symm (openCycle_evt s).symm

/-- Settles O10: only the controller and boot reset refuse, and each names its ground. -/
theorem onlyIllegalRunsAreRefused : Obligations.OnlyIllegalRunsAreRefused := by
  unfold Obligations.OnlyIllegalRunsAreRefused
  intro s r h
  show IllegalAtPort s r ∨ _
  rcases step_refused h with h | ⟨n, ms, hs, h⟩
  · exact .inl ((illegalAtPort_of_controllerTurn h).congr rfl rfl)
  · obtain ⟨hl, hn, hr⟩ := resetTurn_refused h
    exact .inr ⟨n, ms, hs, hl, hn, hr⟩

/-! ### A held TICK executes (R113, R124, R127, R143) -/

/-- The bit-level steps a transmission in flight still needs: one a bit from the cursor on, and one for the gap. -/
def stepsLeft (s : State) : Nat :=
  match s.txState with
  | .idle => 0
  | .bits => s.params.frameBits - s.txK + 1
  | .gap => 1

theorem stepsLeft_idle {s : State} (ht : s.txState = .idle) : stepsLeft s = 0 := by
  simp [stepsLeft, ht]

theorem stepsLeft_bits {s : State} (ht : s.txState = .bits) : stepsLeft s = s.params.frameBits - s.txK + 1 := by
  simp [stepsLeft, ht]

theorem stepsLeft_gap {s : State} (ht : s.txState = .gap) : stepsLeft s = 1 := by
  simp [stepsLeft, ht]

/-- The engine is idle exactly when it needs no step. -/
theorem stepsLeft_eq_zero_iff (s : State) : stepsLeft s = 0 ↔ s.txState = .idle := by
  cases ht : s.txState with
  | idle => simp [stepsLeft_idle ht]
  | bits => simp [stepsLeft_bits ht]
  | gap => simp [stepsLeft_gap ht]

/-- With a transmission in flight the statement of O37 counts the same steps. -/
theorem stepsLeft_of_busy {s : State} (ht : s.txState ≠ .idle) :
    stepsLeft s = if s.txState = .bits then 24 * s.params.capacity - s.txK + 1 else 1 := by
  split
  · next hb => rw [stepsLeft_bits hb]; rfl
  · next hb =>
    refine stepsLeft_gap ?_
    cases h : s.txState with
    | idle => exact absurd h ht
    | bits => exact absurd h hb
    | gap => rfl

/-- Each engine step uses up one (R122, R123). -/
theorem Coherent.stepsLeft_engineTurn {s : State} (h : Coherent s) (hl : s.params.level = .bit) :
    stepsLeft (Machine.engineTurn s) = stepsLeft s - 1 := by
  cases ht : s.txState with
  | idle => rw [engineTurn_idle hl ht, stepsLeft_idle ht]
  | gap => rw [engineTurn_gap hl ht, stepsLeft_gap ht, stepsLeft_idle rfl]
  | bits =>
    have hk := h.txK
    rw [engineTurn_bits hl ht, stepsLeft_bits ht]
    by_cases hlast : lastBit s = true
    · have hcursor : s.txK = s.params.frameBits - 1 := by simpa [lastBit] using hlast
      rw [stepsLeft_gap (by simp [hlast])]
      omega
    · rw [stepsLeft_bits (by simp [hlast]), emit_params, emit_txK, if_neg hlast]
      omega

/-- The engine's turn leaves the moves to come alone. -/
theorem engineTurn_keeps_sched (s : State) : (engineTurn s).sched = s.sched :=
  (congrArg State.sched (engineTurn_sched s s.sched) :)

/-- A TICK at the head of the port under a policy that holds it while a transmission is in flight, with no move chosen, at
bit level (R113, R124). -/
structure TickAtPort (ws : List Word) (s : State) : Prop where
  coherent : Coherent s
  level : s.params.level = .bit
  sched : s.sched = []
  evt : s.evt = none
  holds : s.params.tickBusyPolicy = .hold ∨ s.params.txStrategy = .blocking
  port : s.port = encode .tick :: ws

/-- While the engine is busy the controller is not ready for the TICK: it holds it, or waits. -/
theorem TickAtPort.not_ready {ws : List Word} {s : State} (h : TickAtPort ws s) (hb : s.busy = true) :
    controllerReady s = false := by
  cases hw : s.ctlWait with
  | tx => exact controllerReady_waiting hw
  | none =>
    have hhold : s.params.tickBusyPolicy = .hold := by
      refine h.holds.resolve_right fun hblocking => ?_
      simp [h.coherent.wait.2 ⟨hblocking, hb⟩] at hw
    rw [controllerReady_tick hw h.port (decode_encode .tick)]
    simp [tickHeld, h.evt, hb, hhold]

/-- So the step is the engine's. -/
theorem TickAtPort.step_engine {ws : List Word} {s : State} (h : TickAtPort ws s) (ht : s.txState ≠ .idle) :
    step s = .next (engineTurn s) := by
  rw [step_auto h.sched, autoStep_engine (h.not_ready (h.coherent.busy.2 ht)) ht]

/-- The engine's turn leaves the TICK where it is. -/
theorem TickAtPort.engineTurn {ws : List Word} {s : State} (h : TickAtPort ws s) :
    TickAtPort ws (Machine.engineTurn s) := by
  obtain ⟨-, -, -, hevt, hport, -⟩ := engineTurn_frame s
  exact {
    coherent := h.coherent.engineTurn
    level := by simpa using h.level
    sched := (engineTurn_keeps_sched s).trans h.sched
    evt := hevt.trans h.evt
    holds := by simpa using h.holds
    port := hport.trans h.port }

/-- For as many steps as the transmission still needs the TICK stays, and the engine goes on. -/
theorem TickAtPort.run_held {ws : List Word} (n : Nat) {s : State} (h : TickAtPort ws s) (hn : n ≤ stepsLeft s) :
    ∃ t, Host.Core.run Sys2Proof.core n s = .next t ∧ TickAtPort ws t ∧ t.phase = s.phase ∧ t.frame = s.frame ∧
      stepsLeft t = stepsLeft s - n := by
  induction n generalizing s with
  | zero => exact ⟨s, rfl, h, rfl, rfl, rfl⟩
  | succ n ih =>
    have ht : s.txState ≠ .idle := by rw [ne_eq, ← stepsLeft_eq_zero_iff]; omega
    have hleft := h.coherent.stepsLeft_engineTurn h.level
    obtain ⟨hframe, -, hphase, -⟩ := engineTurn_frame s
    obtain ⟨t, hrun, htick, hp, hf, hl⟩ := ih h.engineTurn (by omega)
    exact ⟨t, (run_succ (h.step_engine ht)).trans hrun, htick, hp.trans hphase, hf.trans hframe, by omega⟩

/-- With the engine idle the default policy executes the TICK. -/
theorem TickAtPort.step_tick {ws : List Word} {s : State} (h : TickAtPort ws s) (hb : s.busy = false) :
    step s = .next (tickPass s.accept) := by
  have hw : s.ctlWait = .none := by
    cases hw : s.ctlWait with
    | none => rfl
    | tx => simp [(h.coherent.wait.1 hw).2] at hb
  have hd := decode_encode .tick
  have hready : controllerReady s = true := by
    rw [controllerReady_tick hw h.port hd]
    simp [tickHeld, hb]
  rw [step_auto_bit h.sched h.port hd h.level hready, exec_tick_of_idle ⟨hw, h.evt⟩ hb]

/-- Settles O37: the engine uses up the steps that are left one by one, and then the TICK is no longer held. -/
theorem heldTickExecutesAfterCompletion : Obligations.HeldTickExecutesAfterCompletion := by
  unfold Obligations.HeldTickExecutesAfterCompletion
  intro s ws hc hl hs he hb hholds hp
  have hword : (0x5000000000000000 : Word) = encode .tick := by decide
  have h : TickAtPort ws s := ⟨hc, hl, hs, he, hholds, hp.trans (by rw [hword])⟩
  rw [← stepsLeft_of_busy (hc.busy.1 hb)]
  refine ⟨fun n hn => ?held, ?executed⟩
  case held =>
    obtain ⟨t, hrun, htick, hphase, hframe, -⟩ := h.run_held n hn
    exact ⟨t, hrun, htick.port.trans h.port.symm, hphase, hframe⟩
  case executed =>
    obtain ⟨t, hrun, htick, hphase, -, hleft⟩ := h.run_held _ le_rfl
    have hidle : t.txState = .idle := (stepsLeft_eq_zero_iff t).1 (by omega)
    have hbusy : t.busy = false := by
      rw [← Bool.not_eq_true, htick.coherent.busy, hidle]
      simp
    refine ⟨tickPass t.accept, (run_add hrun).trans (run_one (htick.step_tick hbusy)), ?_, hbusy, ?_⟩
    · show t.port.tail = ws
      rw [htick.port, List.tail_cons]
    · show togglePhase t.phase = _
      rw [hphase, togglePhase_eq]

/-! ### A command in the completing clock cycle (R148) -/

/-- A command in its sequence, with no wait: held by itself, or accepted with its whole effect (R143). -/
theorem exec_in_sequence {i : Instr} {s : State} (hw : s.ctlWait = .none) (he : s.evt.isSome = isQuad i) :
    exec i s = .next (if heldOf i s then s else effectOf i s.accept) := by
  cases hq : isQuad i with
  | true =>
    obtain ⟨am, b, e, pair, rfl⟩ := exists_quad_of_isQuad hq
    obtain ⟨acc, hacc⟩ := Option.isSome_iff_exists.1 (he.trans hq)
    rw [exec_quad_accepted hw hacc]
    simp [heldOf, effectOf, hacc]
  | false =>
    have hnone : s.evt = none := by simpa [hq] using he
    cases hh : heldOf i s with
    | true => rw [exec_eq_gate hq, hh, gate_held _ hw hnone, if_pos rfl]
    | false => rw [exec_accepted hq hh hw hnone, if_neg Bool.false_ne_true]

/-- With a transmission in flight the only command that holds itself is TICK, under HOLD. -/
theorem heldOf_of_busy (i : Instr) {s : State} (hb : s.busy = true) :
    heldOf i s = decide (i = .tick ∧ s.params.tickBusyPolicy = .hold) := by
  simp [heldOf, tickHeld, hb]

/-- With a transmission in flight a command in its sequence touches the records, the event, `dirty` and the port alone; a
held TICK stays on the port, any other word leaves it, and `dirty` is set as the command says. -/
theorem exec_busy_in_sequence {i : Instr} {s : State} (hw : s.ctlWait = .none) (he : s.evt.isSome = isQuad i)
    (hb : s.busy = true) :
    ∃ led evt, exec i s = .next
      { s with
        led := led, evt := evt, dirty := s.dirty || setsDirty i s,
        port := if i = .tick ∧ s.params.tickBusyPolicy = .hold then s.port else s.port.tail } := by
  rw [exec_in_sequence hw he, heldOf_of_busy i hb]
  by_cases hh : i = .tick ∧ s.params.tickBusyPolicy = .hold
  · refine ⟨s.led, s.evt, ?_⟩
    obtain ⟨rfl, hp⟩ := hh
    simp [hp, setsDirty]
  · obtain ⟨led, evt, dirty, hx, -⟩ := effectOf_busy i (t := s.accept) hb
    have hd : dirty = (s.dirty || setsDirty i s) := by
      have := effectOf_dirty i (t := s.accept) hb
      rw [hx] at this
      exact this
    refine ⟨led, evt, ?_⟩
    rw [if_neg (by simpa using hh), if_neg hh, hx, hd]
    rfl

/-- In the last clock cycle of the gap the engine's clear of `dirty` comes first (R148). -/
theorem openCycle_dirty_gap_end {s : State} (ht : s.txState = .gap) (hg : s.txG = s.params.resetCycles - 1) :
    (openCycle s).dirty = (s.dirty && decide (s.params.dirtyClear = .atStart)) := by
  rw [openCycle_eq, ← dirtyAtComplete_eq]
  simp [gapEnds, ht, hg]

/-- In the last clock cycle of the gap the transmission completes, whatever the command does beside the engine. -/
theorem closeCycle_gap_end {s u : State} (ht : s.txState = .gap) (hu : u.txState = .gap)
    (hg : u.txG = u.params.resetCycles - 1) : closeCycle s u = endGap u := by
  rw [closeCycle, if_neg (by simp [ht]), cycleRegs_gap_end hu hg]

/-- Of the state only the event says whether a command sets `dirty`. -/
theorem setsDirty_congr (i : Instr) {s t : State} (h : t.evt = s.evt) : setsDirty i t = setsDirty i s := by
  simp only [setsDirty, h]

/-- The last clock cycle of the gap with a command in its sequence: the engine's clear of `dirty`, then the command, which
still sees `busy`, then the end of the transmission (R148). -/
theorem Coherent.controllerTurn_gap_end {s : State} {ws : List Word} {i : Instr} (h : Coherent s)
    (hl : s.params.level = .cycle) (hw : s.ctlWait = .none) (ht : s.txState = .gap)
    (hg : s.txG = s.params.resetCycles - 1) (hp : s.port = encode i :: ws) (he : s.evt.isSome = isQuad i) :
    ∃ t, Machine.controllerTurn s = .next t ∧ t.txState = .idle ∧ t.busy = false ∧ t.wire = s.wire ++ [.gap] ∧
      t.phase = s.phase ∧ t.frame = s.frame ∧
      t.port = (if i = .tick ∧ s.params.tickBusyPolicy = .hold then s.port else ws) ∧
      t.dirty = ((s.dirty && decide (s.params.dirtyClear = .atStart)) || setsDirty i s) := by
  have hbusy : s.busy = true := h.busy.2 (by simp [ht])
  obtain ⟨led, evt, hx⟩ := exec_busy_in_sequence (i := i) (s := Machine.openCycle s) (by simpa using hw)
    (by simpa using he) (by simpa using hbusy)
  have hrun := (controllerRun_head ((openCycle_port s).trans hp) (decode_encode i)).trans hx
  refine ⟨_, controllerTurn_cycle hl hrun, ?_⟩
  rw [closeCycle_gap_end ht (by simpa using ht) (by simpa using hg)]
  refine ⟨rfl, rfl, by simp, by simp, by simp, by simp [hp], ?_⟩
  rw [endGap_dirty, ← openCycle_dirty_gap_end ht hg, ← setsDirty_congr i (openCycle_evt s)]

/-- A header sets `dirty` exactly when its event is empty. -/
theorem setsDirty_evt (evop k : Byte) (t : State) : setsDirty (.evt evop k) t = decide (k = 0) := by
  have hk : k.toNat = 0 ↔ k = 0 := by bv_omega
  exact decide_eq_decide.2 hk

/-- A QUAD sets `dirty` exactly when it is the last one expected (R31). -/
theorem Coherent.setsDirty_quad {t : State} (h : Coherent t) (am : Byte) (b e : Pos) (pair : Byte) :
    setsDirty (.quad am b e pair) t = decide (t.evt.map (·.expected) = some 1) := by
  cases hevt : t.evt with
  | none => simp [setsDirty, hevt]
  | some acc =>
    obtain ⟨hpos, -⟩ := h.evt acc hevt
    simp only [setsDirty, hevt, Option.map_some, Option.getD_some, Option.some.injEq]
    exact decide_eq_decide.2 (by omega)

/-- Settles O42: the controller's turn in that clock cycle, and the commands that set `dirty` one by one. -/
theorem commandInTheCompletingCycle : Obligations.CommandInTheCompletingCycle := by
  unfold Obligations.CommandInTheCompletingCycle
  intro s ms i ws hc hl hs hw ht hg hp hseq
  have hevt : s.evt.isSome = isQuad i := by
    rcases hseq with ⟨he, hi⟩ | ⟨he, am, b, e, pair, rfl⟩
    · rw [he, isQuad_eq_false hi]; rfl
    · exact he
  obtain ⟨t, hturn, hidle, hbusy, hwire, hphase, hframe, hport, hdirty⟩ :=
    hc.popMove.controllerTurn_gap_end hl hw ht hg hp hevt
  refine ⟨t, (step_popMove hs).trans hturn, hidle, hbusy, hwire, hphase, hframe, hport, ?_⟩
  rw [hdirty]
  congr 1
  cases i with
  | evt evop k => exact setsDirty_evt evop k _
  | quad am b e pair => exact hc.popMove.setsDirty_quad am b e pair
  | _ => rfl

/-! ### Steps when no word is left (R144, R159) -/

/-- What a step can do with no word on the port and none presented: the engine's turn, a change of the environment's store
and answers, or boot reset. -/
inductive WordlessStep (s t : State) : Prop where
  | engine (h : t = engineTurn s.popMove)
  | environment (store : Memory) (cfgFail : List Bool) (h : t = { s.popMove with store := store, cfgFail := cfgFail })
  | reset (n : Nat) (ms : List Move) (hs : s.sched = .reset n :: ms) (h : t = bootReset s.popMove)

/-- With no word on the port the controller's turn is nothing at bit level, the engine's clock cycle at cycle level. -/
theorem controllerTurn_wordless {s t : State} (hp : s.port = []) (h : controllerTurn s = .next t) :
    t = s ∨ t = engineTurn s := by
  cases hl : s.params.level with
  | bit =>
    rw [controllerTurn_bit hl, controllerRun_empty hp] at h
    cases h
    exact .inl rfl
  | cycle =>
    rw [controllerTurn_cycle_nothing hl (controllerRun_empty ((openCycle_port s).trans hp))] at h
    cases h
    exact .inr rfl

/-- A turn of the controller with no word on the port is such a step. -/
theorem wordlessStep_of_controllerTurn {s t : State} (hp : s.port = []) (h : controllerTurn s.popMove = .next t) :
    WordlessStep s t := by
  rcases controllerTurn_wordless (s := s.popMove) hp h with ht | ht
  · exact .environment s.store s.cfgFail ht
  · exact .engine ht

/-- All a step can answer as a next state with no word on the port and none presented. -/
theorem step_wordless {s t : State} (hp : s.port = []) (hm : ∀ m ∈ s.sched, m.presents = false)
    (h : step s = .next t) : WordlessStep s t := by
  cases hs : s.sched with
  | nil =>
    have hr := controllerReady_empty hp
    rw [step_auto hs] at h
    by_cases ht : s.txState = .idle
    · by_cases he : s.evt.isSome = true ∧ s.port = []
      · rw [autoStep_stuck hr ht he.1 he.2] at h
        cases h
      · rw [autoStep_still hr ht he, ← popMove_of_nil hs] at h
        cases h
        exact .environment s.store s.cfgFail rfl
    · rw [autoStep_engine hr ht, ← popMove_of_nil hs] at h
      cases h
      exact .engine rfl
  | cons m ms =>
    have hpresents : m.presents = false := hm m (by simp [hs])
    rw [step_popMove hs] at h
    cases m with
    | controller => exact wordlessStep_of_controllerTurn hp h
    | engine => cases h; exact .engine rfl
    | present w => cases hpresents
    | setCfg key v => cases h; exact .environment _ s.cfgFail rfl
    | dropCfg key => cases h; exact .environment _ s.cfgFail rfl
    | failReads answers => cases h; exact .environment s.store answers rfl
    | reset n =>
      simp only [moveStep, resetTurn] at h
      split at h
      · cases h
      · cases h; exact .reset n ms hs rfl

/-! ### Stuck states (R140, R144) -/

/-- The fault is the default policy's, at an open event with no word and an idle engine. -/
theorem step_fault_iff (s : State) (r : Fault) : step s = .fault r ↔ Stuck s ∧ s.sched = [] ∧ s.txState = .idle := by
  constructor
  · intro h
    cases hs : s.sched with
    | cons m ms =>
      rw [step_popMove hs] at h
      exact absurd h (moveStep_not_fault m _ r)
    | nil =>
      rw [step_auto hs, autoStep] at h
      split at h
      · exact absurd h (controllerTurn_not_fault s r)
      · split at h
        · cases h
        · next ht =>
          split at h
          · next he => exact ⟨⟨he.2, by simp [hs], he.1⟩, rfl, by simpa using ht⟩
          · cases h
  · rintro ⟨⟨hp, -, he⟩, hs, ht⟩
    rw [step_auto hs, autoStep_stuck (controllerReady_empty hp) ht he hp]

/-- Settles O56: a stuck state's steps are the engine's and the environment's, and the fault has the one place. -/
theorem stuckExactlyWhenQuadsNeverArrive : Obligations.StuckExactlyWhenQuadsNeverArrive := by
  unfold Obligations.StuckExactlyWhenQuadsNeverArrive
  refine ⟨fun s t ⟨hp, hm, he⟩ h => ?_, step_fault_iff⟩
  have hrest : ∀ m ∈ s.sched.tail, m.presents = false ∧ m.resets = false := fun m hmem =>
    hm m (List.mem_of_mem_tail hmem)
  cases step_wordless hp (fun m hmem => (hm m hmem).1) h with
  | engine ht =>
    subst ht
    obtain ⟨-, hled, -, hevt, hport, -⟩ := engineTurn_frame s.popMove
    refine ⟨⟨hport.trans hp, ?_, by rw [hevt]; exact he⟩, hevt, hled⟩
    rw [engineTurn_keeps_sched]
    exact hrest
  | environment store cfgFail ht => subst ht; exact ⟨⟨hp, hrest, he⟩, rfl, rfl⟩
  | reset n ms hs ht => cases (hm (.reset n) (by simp [hs])).2

/-! ### Final states (R159) -/

/-- A stuck state has an event open, and a final state none. -/
theorem Stuck.not_final {s : State} (h : Stuck s) : ¬ Final s := by
  obtain ⟨-, -, hopen⟩ := h
  rintro ⟨-, -, hnone, -⟩
  simp [hnone] at hopen

/-- An idle engine's turn can change the line alone. -/
theorem engineTurn_of_idle {s : State} (ht : s.txState = .idle) : engineTurn s = { s with dout := (engineTurn s).dout } := by
  cases hl : s.params.level with
  | bit => rw [engineTurn_idle hl ht]
  | cycle =>
    rw [engineTurn_cycle hl, engineCycle_idle ht, openCycle_eq]
    simp [gapEnds, ht]

/-- Under the invariant it changes nothing, since the line is low already (R30). -/
theorem Coherent.engineTurn_of_idle {s : State} (h : Coherent s) (ht : s.txState = .idle) : Machine.engineTurn s = s := by
  have heq := Machine.engineTurn_of_idle ht
  have hlow : (Machine.engineTurn s).dout = s.dout := by
    rw [h.dout (by simp [ht]), h.engineTurn.dout (by rw [heq]; simp [ht])]
  rw [heq, hlow]

/-- A final state stays final: the engine has nothing to do, and boot reset leaves no event, no wait and no transmission. -/
theorem Final.step {s t : State} (h : Final s) (hn : Machine.step s = .next t) : Final t := by
  obtain ⟨hp, hm, he, hw, ht⟩ := h
  have hrest : ∀ m ∈ s.sched.tail, m.presents = false := fun m hmem => hm m (List.mem_of_mem_tail hmem)
  cases step_wordless hp hm hn with
  | engine hx => rw [hx, engineTurn_of_idle (s := s.popMove) ht]; exact ⟨hp, hrest, he, hw, ht⟩
  | environment store cfgFail hx => rw [hx]; exact ⟨hp, hrest, he, hw, ht⟩
  | reset n ms hs hx => rw [hx]; exact ⟨hp, hrest, rfl, rfl, rfl⟩

/-- Boot reset aside, a final state has a next state: no word is there to be refused, and no event is open. -/
theorem Final.exists_step {s : State} (h : Final s) (hreset : ∀ n ms, s.sched ≠ .reset n :: ms) :
    ∃ t, Machine.step s = .next t := by
  cases hx : Machine.step s with
  | next t => exact ⟨t, rfl⟩
  | fault r => exact absurd h ((step_fault_iff s r).1 hx).1.not_final
  | refused r =>
    rcases step_refused hx with hx | ⟨n, ms, hs, -⟩
    · obtain ⟨w, ws, hp, -⟩ := illegalAtPort_of_controllerTurn hx
      obtain ⟨hnil, -⟩ := h
      cases hp.symm.trans hnil
    · exact absurd hs (hreset n ms)

/-- With no move left the block stands still. -/
theorem Final.step_of_no_move {s : State} (h : Final s) (hs : s.sched = []) : Machine.step s = .next s := by
  obtain ⟨hp, -, he, -, ht⟩ := h
  rw [step_auto hs, autoStep_still (controllerReady_empty hp) ht (by simp [he])]

/-- Settles O57: a final state's steps are those of an idle engine and of the environment. -/
theorem finalStateStandsStill : Obligations.FinalStateStandsStill := by
  unfold Obligations.FinalStateStandsStill
  refine ⟨fun s t h hn => h.step hn, fun s hc h hreset => ?_, fun s h hs => h.step_of_no_move hs,
    fun s h => h.not_final⟩
  obtain ⟨t, hn⟩ := h.exists_step hreset
  obtain ⟨hp, hm, -, -, ht⟩ := h
  refine ⟨t, hn, ?_⟩
  cases step_wordless hp hm hn with
  | engine hx => rw [hx, hc.popMove.engineTurn_of_idle ht]; rfl
  | environment store cfgFail hx => rw [hx]; rfl
  | reset n ms hs hx => exact absurd hs (hreset n ms)

end Sys2Proof.Machine
end

