-- ==== Sys2Proof/Proofs/Reset.lean ====
section
/-! PROOFS. Reset (70_reset_and_hazards.md): what boot reset leaves behind, and the environment's duty to hold it. -/

namespace Sys2Proof.Machine

/-! ### Boot reset as a move (R160, R162) -/

/-- A step whose move is boot reset is the reset's turn. -/
theorem step_reset {s : State} {n : Nat} {ms : List Move} (hs : s.sched = .reset n :: ms) :
    step s = resetTurn n { s with sched := ms } :=
  step_move hs

/-- Bit level knows no duration, and at cycle level the duty is met: the block resets (R162). -/
theorem resetTurn_of_held {n : Nat} {s : State} (h : s.params.level = .bit ∨ s.params.resetCycles ≤ n) :
    resetTurn n s = .next (bootReset s) := by
  refine if_neg fun ⟨hcycle, hshort⟩ => ?_
  rcases h with hbit | hheld
  · cases hcycle.symm.trans hbit
  · exact Nat.not_lt.2 hheld hshort

theorem resetTurn_of_short {n : Nat} {s : State} (hl : s.params.level = .cycle) (hn : n < s.params.resetCycles) :
    resetTurn n s = .refused .resetTooShort :=
  if_pos ⟨hl, hn⟩

/-! ### The statements (R160 to R163) -/

/-- Settles O52: the turn is `bootReset`, and its frame is three draws a position, numbered on from the draws so far. -/
theorem bootResetRestoresTheResetState : Obligations.BootResetRestoresTheResetState := by
  unfold Obligations.BootResetRestoresTheResetState
  intro s n ms hs hheld
  calc step s = resetTurn n { s with sched := ms } := step_reset hs
    _ = .next (bootReset { s with sched := ms }) := resetTurn_of_held hheld
    _ = _ := by rw [bootReset, drawFrame_eq_map]

/-- Settles O53: a duration below the bound is the refusal's ground. -/
theorem shortResetIsRefused : Obligations.ShortResetIsRefused := by
  unfold Obligations.ShortResetIsRefused
  intro s n ms hs hl hn
  exact (step_reset hs).trans (resetTurn_of_short hl hn)

end Sys2Proof.Machine
end
